-- ==== Sys2Proof/Word.lean ====
section
/-! DEFINITION. The byte and the 64-bit word (00_scope.md R8, R9). Every value is unsigned. -/

namespace Sys2Proof

/-- A byte: eight bits, unsigned (R8, R10). -/
abbrev Byte := BitVec 8

/-- A lane, key, digest, TAIL or LENGTH: 64 bits, unsigned, bit 0 least significant (R7, R8). Addition on it
wraps modulo 2^64 (R9, R101). -/
abbrev Word := BitVec 64

end Sys2Proof
end

