-- ==== Sys2Proof/Machine/Bytes.lean ====
section
/-! DEFINITION. Byte sequences and the little-endian packing (00_scope.md R10, 20_memory.md R52 to R55). -/

namespace Sys2Proof.Machine

/-- `bs[a..b)`: the bytes at positions a to b - 1 (00_scope.md R10). -/
def slice (bs : List Byte) (a b : Nat) : List Byte := (bs.take b).drop a

/-- The little-endian packing at width `w`: byte i enters at bits 8i+7 to 8i, by shift and OR (00_scope.md R10). -/
def packLE (w : Nat) : List Byte → BitVec w
  | [] => 0#w
  | b :: bs => b.setWidth w ||| (packLE w bs <<< 8)

/-- `le64` (00_scope.md R10); the spec uses it on at most 8 bytes. -/
def le64 (bs : List Byte) : Word := packLE 64 bs

/-- `le32` (00_scope.md R10); the spec uses it on at most 4 bytes. -/
def le32 (bs : List Byte) : BitVec 32 := packLE 32 bs

/-- The `n` bytes of a word, least significant first: byte i is `v[8i+7:8i]` (00_scope.md R8, 20_memory.md R55). -/
def bytesLE (n : Nat) {w : Nat} (v : BitVec w) : List Byte :=
  (List.range n).map fun i => v.extractLsb' (8 * i) 8

end Sys2Proof.Machine
end

