-- ==== Sys2Proof/Machine/Operands.lean ====
section
/-! DEFINITION. Operand assembly: every operand form of the four frame formats (30_encoding.md R72 to R75, R85).
Each function takes the whole frame, opcode byte first. -/

namespace Sys2Proof.Machine

/-- FK: `k0 = le64(frame[1..9))` (30_encoding.md R73). -/
def operandK0 (frame : List Byte) : Word := le64 (slice frame 1 9)

/-- FK: `k1 = le64(frame[9..17))` (30_encoding.md R73). -/
def operandK1 (frame : List Byte) : Word := le64 (slice frame 9 17)

/-- FL: the unsigned length `n = le32(frame[1..5))` (30_encoding.md R74). -/
def operandN (frame : List Byte) : Nat := (le32 (slice frame 1 5)).toNat

/-- FL: the payload `frame[5..5+n)` (30_encoding.md R74). -/
def operandData (frame : List Byte) : List Byte := slice frame 5 (5 + operandN frame)

/-- FB: the byte operand `frame[1]` (30_encoding.md R75); the decoder asks for it only where the frame has two bytes. -/
def operandB (frame : List Byte) : Byte := frame.getD 1 0

end Sys2Proof.Machine
end

