-- ==== Sys2Proof/Syntax.lean ====
section
/-! DEFINITION. The commands: one constructor per mnemonic of spec/opcode_table.json (30_encoding.md R76, R84). -/

namespace Sys2Proof

/-- A decoded command frame (30_encoding.md R76). The operand forms are exactly those of R73 (keys), R74 (payload)
and R75 (byte); no command has another (R85). -/
inductive Instr where
  /-- LOADKEY, opcode 0x01, format FK (43_factory.md R160). -/
  | loadkey (k0 k1 : Word)
  /-- INIT, opcode 0x02, format F0 (43_factory.md R163). -/
  | init
  /-- UPDATE, opcode 0x03, format FL; the length field n is `data.length` (41_absorption.md R120). -/
  | update (data : List Byte)
  /-- UPDATE_U8, opcode 0x04, format FB (41_absorption.md R130). -/
  | updateU8 (b : Byte)
  /-- FINISH, opcode 0x05, format F0 (42_finalization.md R140). -/
  | finish
  /-- DIGEST, opcode 0x06, format FL (43_factory.md R165). -/
  | digest (data : List Byte)
  /-- DIGEST_U8, opcode 0x07, format FB (43_factory.md R166). -/
  | digestU8 (b : Byte)
  /-- The "(illegal)" rows: the outcome Illegal(op) of R84, with the one byte that is the whole frame
  (30_encoding.md R78, 60_exceptions.md R201; log entry 9). -/
  | illegal (op : Byte)
  deriving DecidableEq, Repr

end Sys2Proof
end

