-- ==== Sys2Proof/Decode.lean ====
section
/-! DEFINITION. The decoder, total on any bytes (30_encoding.md R84), and after it the encoder (R72 to R77). -/

namespace Sys2Proof

open Sys2Proof.Machine

/-- What the decoder says of the bytes received since the end of the previous frame (30_encoding.md R84). The spec's
third outcome, Illegal(op), is `frame (.illegal op) rest`: it consumes the opcode byte alone (R78). -/
inductive Decoded where
  /-- NeedMore: the frame is incomplete, and the block waits for more bytes. -/
  | needMore
  /-- One whole frame, and the bytes after its last byte, which the decoder never looks at. -/
  | frame (i : Instr) (rest : List Byte)
  deriving DecidableEq, Repr

/-- FK: 17 bytes (30_encoding.md R72, R77). -/
def decodeFK (cmd : Word → Word → Instr) (bs : List Byte) : Decoded :=
  if bs.length < 17 then .needMore else .frame (cmd (operandK0 bs) (operandK1 bs)) (bs.drop 17)

/-- FL: 5 + n bytes, where n stands at offsets 1 to 4 (30_encoding.md R72, R77). -/
def decodeFL (cmd : List Byte → Instr) (bs : List Byte) : Decoded :=
  if bs.length < 5 then .needMore
  else if bs.length < 5 + operandN bs then .needMore
  else .frame (cmd (operandData bs)) (bs.drop (5 + operandN bs))

/-- FB: 2 bytes (30_encoding.md R72, R77). -/
def decodeFB (cmd : Byte → Instr) (bs : List Byte) : Decoded :=
  if bs.length < 2 then .needMore else .frame (cmd (operandB bs)) (bs.drop 2)

/-- Decode(bs) of 30_encoding.md R84. -/
def decode (bs : List Byte) : Decoded :=
  match bs with
  | [] => .needMore
  | op :: rest =>
    if op = 0x01#8 then decodeFK .loadkey bs
    else if op = 0x02#8 then .frame .init rest
    else if op = 0x03#8 then decodeFL .update bs
    else if op = 0x04#8 then decodeFB .updateU8 bs
    else if op = 0x05#8 then .frame .finish rest
    else if op = 0x06#8 then decodeFL .digest bs
    else if op = 0x07#8 then decodeFB .digestU8 bs
    else .frame (.illegal op) rest

/-- The opcode byte of a command (30_encoding.md R76). -/
def Instr.opcode : Instr → Byte
  | .loadkey _ _ => 0x01#8
  | .init => 0x02#8
  | .update _ => 0x03#8
  | .updateU8 _ => 0x04#8
  | .finish => 0x05#8
  | .digest _ => 0x06#8
  | .digestU8 _ => 0x07#8
  | .illegal op => op

/-- The operand bytes of a command, in the layout of its format (30_encoding.md R72 to R75). -/
def Instr.operandBytes : Instr → List Byte
  | .loadkey k0 k1 => bytesLE 8 k0 ++ bytesLE 8 k1
  | .init => []
  | .update data => bytesLE 4 (BitVec.ofNat 32 data.length) ++ data
  | .updateU8 b => [b]
  | .finish => []
  | .digest data => bytesLE 4 (BitVec.ofNat 32 data.length) ++ data
  | .digestU8 b => [b]
  | .illegal _ => []

/-- The frame of a command: the opcode byte, then the operand bytes (30_encoding.md R72). -/
def encode (i : Instr) : List Byte := i.opcode :: i.operandBytes

/-- The length in bytes of the frame of a command (30_encoding.md R77). -/
def Instr.frameLength : Instr → Nat
  | .loadkey _ _ => 17
  | .init => 1
  | .update data => 5 + data.length
  | .updateU8 _ => 2
  | .finish => 1
  | .digest data => 5 + data.length
  | .digestU8 _ => 2
  | .illegal _ => 1

/-- The bytes of a table word, bit 0 being the least significant bit of the first byte. -/
def tableWordBytes (nbits w : Nat) : List Byte :=
  (List.range (nbits / 8)).map fun i => BitVec.ofNat 8 (w / 2 ^ (8 * i))

/-- How many bytes the frame needs that begins with the bytes `bs` and goes on in zeros (30_encoding.md R77). -/
def neededBytes (bs : List Byte) : Nat :=
  let header := bs ++ List.replicate 5 0#8
  let op := header.headD 0
  if op = 0x01#8 then 17
  else if op = 0x03#8 ∨ op = 0x06#8 then 5 + operandN header
  else if op = 0x04#8 ∨ op = 0x07#8 then 2
  else 1

/-- The bytes of a table word as the host sends them: the word's own bytes, then the zero operand bytes that the
frame still needs. -/
def tableFrame (nbits w : Nat) : List Byte :=
  let bs := tableWordBytes nbits w
  bs ++ List.replicate (neededBytes bs - bs.length) 0#8

/-- The instruction this decoder reads from a table word (none where the bytes are not one whole frame). -/
def decodeTableWord (nbits w : Nat) : Option Instr :=
  match decode (tableFrame nbits w) with
  | .frame i [] => some i
  | _ => none

end Sys2Proof
end

