-- ==== Sys2Proof/Config.lean ====
section
/-! DEFINITION. What this hardware fixes (00_scope.md R7) and the free values that stand for "no value". -/

namespace Sys2Proof.Config

/-- C_ROUNDS: compression rounds per block (R7, R106). A constant: no command selects another count. -/
abbrev cRounds : Nat := 2

/-- D_ROUNDS: finalization rounds (R7, R144). -/
abbrev dRounds : Nat := 4

/-- BLOCK_BYTES (R7). -/
abbrev blockBytes : Nat := 8

/-- The most payload bytes one UPDATE or DIGEST frame carries: 2^LEN_FIELD_WIDTH - 1 with the 32-bit length field
(R7, R74). -/
abbrev maxPayload : Nat := 2 ^ 32 - 1

/-- A free 64-bit value: the bits of a register that "holds no value" (42_finalization.md R140, 10_state.md R29;
log entry 3). It has no body, so no proof can know a value of it. -/
opaque freeWord : Nat → Word

/-- A free 3-bit value, for NTAIL (log entry 3). -/
opaque freeCount : Nat → BitVec 3

end Sys2Proof.Config
end

