-- ==== Sys2Proof/Machine/State.lean ====
section
/-! DEFINITION. The whole state of the block (10_state.md R20 to R38), what the host still does, and the reasons a
step can stop. Plain data. -/

namespace Sys2Proof.Machine

/-- The four mixing lanes V0 to V3 (10_state.md R24). -/
structure Lanes where
  v0 : Word
  v1 : Word
  v2 : Word
  v3 : Word
  deriving DecidableEq, Repr

/-- The engine record `e` (00_scope.md R11): the registers V0..V3, TAIL, NTAIL and LENGTH of the persistent engine,
and the type of the scratch context of DIGEST and DIGEST_U8 (10_state.md R24 to R28, R37). -/
structure Engine where
  lanes : Lanes
  /-- Pending byte j at bits 8j+7 to 8j (R25). -/
  tail : Word
  /-- The number of pending bytes, 0 to 7: "three bits hold it exactly" (R26). -/
  ntail : BitVec 3
  /-- Bytes absorbed since INIT, modulo 2^64 (R28). -/
  length : Word
  deriving DecidableEq, Repr

/-- ENG_STATE (10_state.md R31). The value 3 is excluded by the type (93_implementation_defined.md I5). -/
inductive EngState where
  /-- 0: no engine exists. -/
  | idle
  /-- 1: an engine exists and accepts UPDATE, UPDATE_U8 and FINISH. -/
  | active
  /-- 2: a contract violation was detected; nothing is accepted until reset. -/
  | fault
  deriving DecidableEq, Repr

/-- The three causes a command can raise (60_exceptions.md R200). -/
inductive FaultCause where
  | illegalOpcode
  | noKey
  | notActive
  deriving DecidableEq, Repr

/-- One act of the host (70_reset_and_hazards.md R240). Reading STATUS is no act: it has no side effect (R59). -/
inductive HostAct where
  /-- Offer these bytes on the command channel, in order, until they are taken. -/
  | send (bytes : List Byte)
  /-- Take one byte from the response channel. -/
  | take
  /-- Drive the RST input to this level. -/
  | rst (level : Bool)
  deriving DecidableEq, Repr

/-- The state of the block, and of its host as far as the host's next acts go. -/
structure State where
  /-- K0 (10_state.md R21); "no value" while KEYS_VALID = 0 (R30), see `State.keys?`. -/
  k0 : Word
  /-- K1 (10_state.md R21). -/
  k1 : Word
  /-- KEYS_VALID (10_state.md R22). -/
  keysValid : Bool
  /-- V0..V3, TAIL, NTAIL, LENGTH; "no value" outside ACTIVE (10_state.md R29), see `State.engine?`. -/
  eng : Engine
  /-- ENG_STATE (10_state.md R31). -/
  engState : EngState
  /-- CAUSE (10_state.md R33). -/
  cause : Byte
  /-- The partially received frame (10_state.md R36): the bytes received since the end of the previous frame. -/
  rx : List Byte
  /-- The response bytes the host has not yet taken, oldest first (10_state.md R38, 30_encoding.md R71). -/
  tx : List Byte
  /-- The level of the RST input (30_encoding.md R70). -/
  rst : Bool
  /-- The model's own: the host's acts still to come, in order (70_reset_and_hazards.md R240, R241; log entry 5). -/
  host : List HostAct
  /-- The model's own: the response bytes the host has taken, oldest first, which a run observes (R241; log entry 12). -/
  delivered : List Byte
  /-- The model's own: the counter that the free values of FINISH are drawn with (log entry 3). -/
  fresh : Nat
  deriving DecidableEq, Repr

/-- Why a step stops: the block, or its host, waits for something that does not come. The spec's word for these is
`stuck` (93_implementation_defined.md I8, I11, I12). No command's meaning raises one. All are safe: the model stops
where the hardware waits. -/
inductive Fault where
  /-- Raised by the step in FAULT when no RST is to come: no command byte is accepted (60_exceptions.md R205, I8). Safe. -/
  | halted
  /-- Raised by the step when RST stays 1 (70_reset_and_hazards.md R230). Safe. -/
  | heldInReset
  /-- Raised by the step when the host never takes the response (70_reset_and_hazards.md R236, I12). Safe. -/
  | responseUntaken
  /-- Raised by the step when the rest of a frame never arrives (70_reset_and_hazards.md R237, I11). Safe. -/
  | frameIncomplete
  /-- Raised by the step when no frame is offered (70_reset_and_hazards.md R230: the block waits for the first byte). Safe. -/
  | awaitingFrame
  deriving DecidableEq, Repr

/-- Why a step gives no meaning. -/
inductive Refusal where
  /-- Raised by exec's arm of an instruction that has no meaning yet; no arm does. Safe. -/
  | notModelled (mnemonic : String)
  deriving DecidableEq, Repr

/-- The engine registers right after reset. The spec: "no value" (10_state.md R38). DESIGN CHOICE zero (log entry 2):
no step reads them before INIT writes them. -/
def Engine.atReset : Engine := { lanes := { v0 := 0, v1 := 0, v2 := 0, v3 := 0 }, tail := 0, ntail := 0, length := 0 }

/-- The machine right after reset (10_state.md R38, 70_reset_and_hazards.md R230): IDLE, no keys, CAUSE 0, no partial
frame, no response, RST back at 0. K0 and K1 hold "no value"; DESIGN CHOICE zero (log entry 1). The host has nothing to
do (log entry 5). -/
def State.reset : State :=
  { k0 := 0, k1 := 0, keysValid := false, eng := Engine.atReset, engState := .idle, cause := 0, rx := [], tx := [],
    rst := false, host := [], delivered := [], fresh := 0 }

end Sys2Proof.Machine
end

