-- ==== Sys2Proof/Machine/Flags.lean ====
section
/-! DEFINITION. The STATUS register and the codes in it (10_state.md R31, R33, R34; 60_exceptions.md R200). The block
has no condition codes and no other flag (10_state.md R35). -/

namespace Sys2Proof.Machine

/-- ENG_STATE's code: IDLE 0, ACTIVE 1, FAULT 2 (10_state.md R31). -/
def EngState.code : EngState → BitVec 2
  | .idle => 0
  | .active => 1
  | .fault => 2

/-- The code of a cause, in CAUSE and as a response's status byte (60_exceptions.md R200, 30_encoding.md R80). -/
def FaultCause.code : FaultCause → Byte
  | .illegalOpcode => 0x01
  | .noKey => 0x02
  | .notActive => 0x03

/-- The status byte OK (30_encoding.md R80). -/
def okByte : Byte := 0x00

/-- BUSY: "1 from the block's acceptance of a frame's first byte until the last byte of that frame's response has been
delivered; 0 otherwise" (10_state.md R34). -/
def State.busy (s : State) : Bool := !s.rx.isEmpty || !s.tx.isEmpty

/-- STATUS (10_state.md R34): CAUSE at 15:8, BUSY at 3, KEYS_VALID at 2, STATE at 1:0, and zeros at 7:4. -/
def State.status (s : State) : BitVec 16 :=
  (s.cause.setWidth 16 <<< 8) ||| ((BitVec.ofBool s.busy).setWidth 16 <<< 3)
    ||| ((BitVec.ofBool s.keysValid).setWidth 16 <<< 2) ||| s.engState.code.setWidth 16

end Sys2Proof.Machine
end

