-- ==== Sys2Proof/Machine/Ops.lean ====
section
/-! DEFINITION. The operations that the commands share: the permutation (40_permutation.md), Absorb (41_absorption.md),
Finalize (42_finalization.md), KeyInit (43_factory.md), reading the registers that may hold no value, the response, the
fault entry and the reset. -/

namespace Sys2Proof.Machine

/-- Rotate left (40_permutation.md R100), by the formula the spec gives for 1 ≤ s ≤ 63. -/
def rotl64 (a : Word) (s : Nat) : Word := (a <<< s) ||| (a >>> (64 - s))

/-- SipRound: the four steps in order, each on the values the steps before it left (40_permutation.md R102). -/
def sipRound (v : Lanes) : Lanes :=
  -- step 1
  let v0 := v.v0 + v.v1
  let v1 := rotl64 v.v1 13
  let v1 := v1 ^^^ v0
  let v0 := rotl64 v0 32
  -- step 2
  let v2 := v.v2 + v.v3
  let v3 := rotl64 v.v3 16
  let v3 := v3 ^^^ v2
  -- step 3
  let v0 := v0 + v3
  let v3 := rotl64 v3 21
  let v3 := v3 ^^^ v0
  -- step 4
  let v2 := v2 + v1
  let v1 := rotl64 v1 17
  let v1 := v1 ^^^ v2
  let v2 := rotl64 v2 32
  { v0 := v0, v1 := v1, v2 := v2, v3 := v3 }

/-- Rounds(v, r): SipRound r times (40_permutation.md R104). -/
def rounds (v : Lanes) : Nat → Lanes
  | 0 => v
  | r + 1 => rounds (sipRound v) r

/-- Compress(v, m): the block-absorption rule (40_permutation.md R105). -/
def compress (v : Lanes) (m : Word) : Lanes :=
  let w := rounds { v with v3 := v.v3 ^^^ m } Config.cRounds
  { w with v0 := w.v0 ^^^ m }

/-- Step 3 of Absorb: compress the full 8-byte words of `bs`, in order, and answer the lanes and the bytes left over
(41_absorption.md R121). `fuel` bounds the loop; `bs.length` is always enough. -/
def absorbWords : Nat → Lanes → List Byte → Lanes × List Byte
  | 0, v, bs => (v, bs)
  | fuel + 1, v, bs =>
    if Config.blockBytes ≤ bs.length then
      absorbWords fuel (compress v (le64 (bs.take Config.blockBytes))) (bs.drop Config.blockBytes)
    else (v, bs)

/-- Steps 3 and 4 of Absorb: the full words, then the remaining 0 to 7 bytes as the new tail (41_absorption.md R121). -/
def absorbFull (e : Engine) (bs : List Byte) : Engine :=
  let r := absorbWords bs.length e.lanes bs
  { e with lanes := r.1, tail := le64 r.2, ntail := BitVec.ofNat 3 r.2.length }

/-- TAIL with the bytes `bs` ORed in above the NTAIL pending ones (41_absorption.md R121, step 2). -/
def Engine.tailWith (e : Engine) (bs : List Byte) : Word := e.tail ||| (le64 bs <<< (8 * e.ntail.toNat))

/-- Absorb(e, bs) (41_absorption.md R121): step 1 counts the bytes, step 2 completes a pending partial block, and
steps 3 and 4 are `absorbFull`. When NTAIL = 0 step 2 does nothing (R123). -/
def absorb (e : Engine) (bs : List Byte) : Engine :=
  let counted := { e with length := e.length + BitVec.ofNat 64 bs.length }
  if 0 < e.ntail.toNat then
    let needed := Config.blockBytes - e.ntail.toNat
    if bs.length < needed then
      { counted with tail := e.tailWith bs, ntail := BitVec.ofNat 3 (e.ntail.toNat + bs.length) }
    else
      absorbFull { counted with lanes := compress e.lanes (e.tailWith (bs.take needed)), ntail := 0 } (bs.drop needed)
  else absorbFull counted bs

/-- The pad word: `(length mod 256) << 56 OR tail` (42_finalization.md R141 step 1, R142). -/
def Engine.padWord (e : Engine) : Word := ((e.length &&& 0xff) <<< 56) ||| e.tail

/-- The finalization twist: v2 XOR 0xff (42_finalization.md R141 step 3, R143). -/
def twist (v : Lanes) : Lanes := { v with v2 := v.v2 ^^^ 0xff }

/-- Finalize(e): the digest (42_finalization.md R141). -/
def finalize (e : Engine) : Word :=
  let v := rounds (twist (compress e.lanes e.padWord)) Config.dRounds
  v.v0 ^^^ v.v1 ^^^ v.v2 ^^^ v.v3

/-- KeyInit(k0, k1) (43_factory.md R161). -/
def keyInit (k0 k1 : Word) : Engine :=
  { lanes :=
      { v0 := k0 ^^^ 0x736f6d6570736575
        v1 := k1 ^^^ 0x646f72616e646f6d
        v2 := k0 ^^^ 0x6c7967656e657261
        v3 := k1 ^^^ 0x7465646279746573 }
    tail := 0
    ntail := 0
    length := 0 }

/-- SipHash24(k0, k1, M), the digest function (42_finalization.md R147). -/
def sipHash24 (k0 k1 : Word) (msg : List Byte) : Word := finalize (absorb (keyInit k0 k1) msg)

/-- The keys as the commands read them: no value while KEYS_VALID = 0 (10_state.md R30). -/
def State.keys? (s : State) : Option (Word × Word) :=
  match s.keysValid with
  | true => some (s.k0, s.k1)
  | false => none

/-- The engine as the commands read it: no value outside ACTIVE (10_state.md R29). -/
def State.engine? (s : State) : Option Engine :=
  match s.engState with
  | .active => some s.eng
  | .idle => none
  | .fault => none

/-- `respond(bs)`: the bytes go onto the response channel, in order (30_encoding.md R71). -/
def respond (bs : List Byte) (s : State) : State := { s with tx := s.tx ++ bs }

/-- The response of a command that returns a digest: OK, then the digest's bytes, least significant first
(30_encoding.md R80, 20_memory.md R55). -/
def digestResponse (d : Word) : List Byte := okByte :: bytesLE 8 d

/-- Fault entry, `raise Fault(c)` (60_exceptions.md R204): CAUSE, ENG_STATE and the one-byte response, nothing else
(R206). -/
def raise (c : FaultCause) (s : State) : State :=
  respond [c.code] { s with cause := c.code, engState := .fault }

/-- The only way out of FAULT (60_exceptions.md R209): RST driven to `level`. At either level every register takes its
reset value, and a partial frame and untaken response bytes are discarded (70_reset_and_hazards.md R230). What the host
does next, what it has taken and the free-value counter are not the block's and stay. -/
def applyRst (level : Bool) (s : State) : State :=
  { State.reset with rst := level, host := s.host, delivered := s.delivered, fresh := s.fresh }

/-- The host drives RST to `level`. Driving it to 0 while it is 0 is no edge, and changes nothing
(70_reset_and_hazards.md R230; log entry 11). -/
def driveRst (level : Bool) (s : State) : State := if level || s.rst then applyRst level s else s

/-- Registers that hold no value: free values, drawn with the counter from `n` on (10_state.md R29; log entry 3). -/
def freeEngine (n : Nat) : Engine :=
  { lanes :=
      { v0 := Config.freeWord n
        v1 := Config.freeWord (n + 1)
        v2 := Config.freeWord (n + 2)
        v3 := Config.freeWord (n + 3) }
    tail := Config.freeWord (n + 4)
    ntail := Config.freeCount (n + 5)
    length := Config.freeWord (n + 6) }

/-- FINISH's consumption of the engine: ENG_STATE becomes IDLE and the seven engine registers hold no value
(42_finalization.md R140, R145). -/
def consumeEngine (s : State) : State :=
  { s with engState := .idle, eng := freeEngine s.fresh, fresh := s.fresh + 7 }

end Sys2Proof.Machine
end

