-- ==== Sys2Proof/Machine/Channel.lean ====
section
/-! DEFINITION. The command and response channels and the RST pin: what the step does with the host's next act
(30_encoding.md R70, R71, R82 to R84; 70_reset_and_hazards.md R230 to R237, R240). -/

namespace Sys2Proof.Machine

/-- CMD_READY: the block can take a command byte: not in reset (70_reset_and_hazards.md R230), not in FAULT
(60_exceptions.md R205), and not before the whole response of the previous frame has been taken (30_encoding.md R82). -/
def State.cmdReady (s : State) : Bool := !s.rst && decide (s.engState ≠ .fault) && s.tx.isEmpty

/-- RSP_VALID: the block offers a response byte; never while RST = 1 (30_encoding.md R70, 70_reset_and_hazards.md R230). -/
def State.rspValid (s : State) : Bool := !s.rst && !s.tx.isEmpty

/-- RSP_DATA; `none` while RSP_VALID = 0, when "the value on RSP_DATA has no meaning" (30_encoding.md R70; log entry 17). -/
def State.rspData (s : State) : Option Byte := if s.rspValid then s.tx.head? else none

/-- CMD_DATA as the host drives it: the next byte it offers; `none` is CMD_VALID = 0 (30_encoding.md R70; log entry 17). -/
def State.cmdData (s : State) : Option Byte :=
  match s.host with
  | .send (b :: _) :: _ => some b
  | _ => none

/-- CMD_VALID: the host offers CMD_DATA (30_encoding.md R70). -/
def State.cmdValid (s : State) : Bool := s.cmdData.isSome

/-- RSP_READY: the host can take a response byte (30_encoding.md R70). -/
def State.rspReady (s : State) : Bool := s.host.head? = some .take

/-- The first level the host is still to drive RST to, and its other acts, in order. -/
def nextRst : List HostAct → Option (Bool × List HostAct)
  | [] => none
  | .rst level :: acts => some (level, acts)
  | .send bytes :: acts => (nextRst acts).map fun r => (r.1, .send bytes :: r.2)
  | .take :: acts => (nextRst acts).map fun r => (r.1, .take :: r.2)

/-- Why nothing moves (93_implementation_defined.md I8, I11, I12; 70_reset_and_hazards.md R230, R236, R237). -/
def waitReason (s : State) : Fault :=
  if s.rst then .heldInReset
  else if s.engState = .fault then .halted
  else if !s.tx.isEmpty then .responseUntaken
  else if !s.rx.isEmpty then .frameIncomplete
  else .awaitingFrame

/-- Nothing can move on the channels: the only step left is the host's RST, which is a pin of its own and which the
host may drive "at any time" (70_reset_and_hazards.md R232); what the host offers stays offered. Without one the machine
is stuck (log entries 5 and 6). -/
def waitForHost (s : State) : Host.Outcome State Fault Refusal :=
  match nextRst s.host with
  | none => .fault (waitReason s)
  | some (level, acts) => .next (driveRst level { s with host := acts })

/-- What the host still offers of a `send` after the block has taken a frame from it: nothing, or the bytes after the
frame's last byte. -/
def offerRest (left : List Byte) (acts : List HostAct) : List HostAct :=
  if left.isEmpty then acts else .send left :: acts

/-- The block takes the offered bytes, up to the end of one frame (30_encoding.md R83, R84): an incomplete frame is
kept, a complete one is executed at once as one indivisible step (20_memory.md R60) through `run`. -/
def receive (run : Instr → State → Host.Outcome State Fault Refusal) (bytes : List Byte) (acts : List HostAct)
    (s : State) : Host.Outcome State Fault Refusal :=
  match decode (s.rx ++ bytes) with
  | .needMore => .next { s with rx := s.rx ++ bytes, host := acts }
  | .frame i left => run i { s with rx := [], host := offerRest left acts }

/-- The host takes the oldest response byte, which the block never returns again (20_memory.md R59). -/
def deliver (acts : List HostAct) (s : State) : State :=
  { s with tx := s.tx.tail, delivered := s.delivered ++ s.tx.take 1, host := acts }

/-- The host's next act. -/
def hostAct (run : Instr → State → Host.Outcome State Fault Refusal) (s : State) : Host.Outcome State Fault Refusal :=
  match s.host with
  | [] => waitForHost s
  | .rst level :: acts => .next (driveRst level { s with host := acts })
  | .take :: acts => if s.rspValid then .next (deliver acts s) else waitForHost s
  | .send bytes :: acts =>
    if bytes.isEmpty then .next { s with host := acts }
    else if s.cmdReady then receive run bytes acts s
    else waitForHost s

/-- The host offers exactly these bytes next, to a block that waits for a frame's first byte. -/
def offerFrame (frame : List Byte) (s : State) : State :=
  { s with rx := [], tx := [], rst := false, host := .send frame :: s.host }

end Sys2Proof.Machine
end

