-- ==== Sys2Proof/Machine/Absorption.lean ====
section
/-! DEFINITION. UPDATE and UPDATE_U8 (41_absorption.md). -/

namespace Sys2Proof.Machine

/-- Absorbing `bs` into the persistent engine: shared by UPDATE and UPDATE_U8. Without an engine it raises NOT_ACTIVE
(60_exceptions.md R203). -/
def absorbCommand (bs : List Byte) (s : State) : Host.Outcome State Fault Refusal :=
  match s.engine? with
  | none => .next (raise .notActive s)
  | some e => .next (respond [okByte] { s with eng := absorb e bs })

/-- UPDATE (41_absorption.md R120). -/
def execUpdate (data : List Byte) (s : State) : Host.Outcome State Fault Refusal := absorbCommand data s

/-- UPDATE_U8 (41_absorption.md R130). -/
def execUpdateU8 (b : Byte) (s : State) : Host.Outcome State Fault Refusal := absorbCommand [b] s

end Sys2Proof.Machine
end

