-- ==== Sys2Proof/Machine/Factory.lean ====
section
/-! DEFINITION. The key store, starting an engine, and the one-shot digests (43_factory.md). -/

namespace Sys2Proof.Machine

/-- LOADKEY (43_factory.md R160). It never faults and leaves a live engine as it is. -/
def execLoadkey (k0 k1 : Word) (s : State) : Host.Outcome State Fault Refusal :=
  .next (respond [okByte] { s with k0 := k0, k1 := k1, keysValid := true })

/-- INIT (43_factory.md R163, R164): a fresh engine from the keys; without keys it raises NO_KEY. -/
def execInit (s : State) : Host.Outcome State Fault Refusal :=
  match s.keys? with
  | none => .next (raise .noKey s)
  | some (k0, k1) => .next (respond [okByte] { s with eng := keyInit k0 k1, engState := .active })

/-- The one-shot digest of `msg`, on a scratch context (10_state.md R37): shared by DIGEST and DIGEST_U8. -/
def oneShot (msg : List Byte) (s : State) : Host.Outcome State Fault Refusal :=
  match s.keys? with
  | none => .next (raise .noKey s)
  | some (k0, k1) => .next (respond (digestResponse (sipHash24 k0 k1 msg)) s)

/-- DIGEST (43_factory.md R165). -/
def execDigest (data : List Byte) (s : State) : Host.Outcome State Fault Refusal := oneShot data s

/-- DIGEST_U8 (43_factory.md R166). -/
def execDigestU8 (b : Byte) (s : State) : Host.Outcome State Fault Refusal := oneShot [b] s

end Sys2Proof.Machine
end

