-- ==== Sys2Proof/Machine/Finalization.lean ====
section
/-! DEFINITION. FINISH (42_finalization.md). -/

namespace Sys2Proof.Machine

/-- FINISH (42_finalization.md R140, R145): the digest of the engine, which it consumes; without an engine it raises
NOT_ACTIVE. -/
def execFinish (s : State) : Host.Outcome State Fault Refusal :=
  match s.engine? with
  | none => .next (raise .notActive s)
  | some e => .next (respond (digestResponse (finalize e)) (consumeEngine s))

end Sys2Proof.Machine
end

