-- ==== Sys2Proof/Machine/Illegal.lean ====
section
/-! DEFINITION. The illegal opcodes (60_exceptions.md R201). -/

namespace Sys2Proof.Machine

/-- An illegal opcode byte raises ILLEGAL_OPCODE, whatever the state (60_exceptions.md R201, R207). The byte is not
recorded: "CAUSE is the only record" (R200). -/
def execIllegal (_op : Byte) (s : State) : Host.Outcome State Fault Refusal := .next (raise .illegalOpcode s)

end Sys2Proof.Machine
end

