-- ==== Sys2Proof/Machine/Dispatch.lean ====
section
/-! DEFINITION. exec: one arm per constructor of Instr, each one call of its meaning. -/

namespace Sys2Proof.Machine

def exec (i : Instr) (s : State) : Host.Outcome State Fault Refusal :=
  match i with
  | .loadkey k0 k1 => Sys2Proof.Machine.execLoadkey k0 k1 s
  | .init => Sys2Proof.Machine.execInit s
  | .update data => Sys2Proof.Machine.execUpdate data s
  | .updateU8 b => Sys2Proof.Machine.execUpdateU8 b s
  | .finish => Sys2Proof.Machine.execFinish s
  | .digest data => Sys2Proof.Machine.execDigest data s
  | .digestU8 b => Sys2Proof.Machine.execDigestU8 b s
  | .illegal op => Sys2Proof.Machine.execIllegal op s

end Sys2Proof.Machine
end

