-- ==== Sys2Proof/Machine/Step.lean ====
section
/-! DEFINITION. The step: one act of the host, and with the last byte of a frame the whole command. -/

namespace Sys2Proof.Machine

/-- One step: the host's next act; a completed frame runs by `exec`. -/
def step (s : State) : Host.Outcome State Fault Refusal := hostAct exec s

/-- `s` with the frame of a table word as what the host sends next, to a block that waits for a frame. The very next
step receives and runs exactly that frame wherever the block accepts frames at all, that is outside FAULT, in which the
spec has no command step (60_exceptions.md R205; log entry 10). -/
def State.withFetchWord (s : State) (nbits w : Nat) : State := offerFrame (tableFrame nbits w) s

end Sys2Proof.Machine
end

