-- ==== Sys2Proof/WellFormed.lean ====
section
/-! DEFINITION. Which terms of Instr are frames of this hardware. -/

namespace Sys2Proof

/-- The illegal opcode values: 0x00 and 0x08 to 0xFF (30_encoding.md R78). -/
def illegalOpcode (op : Byte) : Bool := op == 0x00#8 || decide (0x08#8 ≤ op)

/-- A payload fits the 32-bit length field (30_encoding.md R74; 93_implementation_defined.md I16). -/
def payloadFits (data : List Byte) : Bool := decide (data.length ≤ Config.maxPayload)

/-- Well-formed commands. "Within a legal frame no field value is illegal" (30_encoding.md R79): the only checks are
the payload's length, and that an `illegal` frame holds an illegal opcode. -/
def Instr.wellFormed : Instr → Bool
  | .loadkey _ _ => true
  | .init => true
  | .update data => payloadFits data
  | .updateU8 _ => true
  | .finish => true
  | .digest data => payloadFits data
  | .digestU8 _ => true
  | .illegal op => illegalOpcode op

end Sys2Proof
end

