-- ==== Sys2Proof/Machine/Assembler.lean ====
section
/-! DEFINITION. The assembler syntax (30_encoding.md R87) and the pseudo-instructions (R88). -/

namespace Sys2Proof.Machine

/-- A line of assembly after parsing, its literals still unbounded naturals (30_encoding.md R87, R88). -/
inductive AsmLine where
  | loadkey (k0 k1 : Nat)
  | init
  | update (data : List Nat)
  | updateU8 (b : Nat)
  | finish
  | digest (data : List Nat)
  | digestU8 (b : Nat)
  /-- Pseudo-instruction DEFAULTKEY. -/
  | defaultKey
  /-- Pseudo-instruction UPDATE_LONG. -/
  | updateLong (data : List Nat)
  deriving DecidableEq, Repr

/-- A key literal; "a key outside 0..2^64 − 1" is rejected (30_encoding.md R87). -/
def keyLiteral (n : Nat) : Option Word := if n < 2 ^ 64 then some (BitVec.ofNat 64 n) else none

/-- A byte literal; "a byte outside 0..0xff" is rejected (30_encoding.md R87). -/
def byteLiteral (n : Nat) : Option Byte := if n ≤ 0xff then some (BitVec.ofNat 8 n) else none

/-- The payload of one frame; one "longer than 2^32 − 1 bytes" is rejected (30_encoding.md R87). -/
def framePayload (data : List Nat) : Option (List Byte) :=
  (data.mapM byteLiteral).bind fun bs => if payloadFits bs then some bs else none

/-- Consecutive pieces of `size` bytes, then the remainder; one empty piece for no bytes (30_encoding.md R88). `fuel`
bounds the recursion; `bs.length` is always enough. -/
def pieces (size : Nat) : Nat → List Byte → List (List Byte)
  | 0, bs => [bs]
  | fuel + 1, bs => if bs.length ≤ size then [bs] else bs.take size :: pieces size fuel (bs.drop size)

/-- DEFAULTKEY expands to `LOADKEY 0, 0` (30_encoding.md R88). -/
def defaultKey : List Instr := [.loadkey 0 0]

/-- UPDATE_LONG expands to ceiling(L / (2^32 − 1)) UPDATE commands, or one empty UPDATE (30_encoding.md R88). -/
def updateLong (bs : List Byte) : List Instr := (pieces Config.maxPayload bs.length bs).map .update

/-- The commands that a line stands for; `none` where the assembler rejects it (30_encoding.md R87, R88). -/
def assemble : AsmLine → Option (List Instr)
  | .loadkey k0 k1 => (keyLiteral k0).bind fun k0 => (keyLiteral k1).map fun k1 => [.loadkey k0 k1]
  | .init => some [.init]
  | .update data => (framePayload data).map fun bs => [.update bs]
  | .updateU8 b => (byteLiteral b).map fun b => [.updateU8 b]
  | .finish => some [.finish]
  | .digest data => (framePayload data).map fun bs => [.digest bs]
  | .digestU8 b => (byteLiteral b).map fun b => [.digestU8 b]
  | .defaultKey => some defaultKey
  | .updateLong data => (data.mapM byteLiteral).map updateLong

/-- The tokens of a line. -/
inductive Token where
  | word (cs : List Char)
  | comma
  | openBracket
  | closeBracket
  deriving DecidableEq, Repr

/-- The word read so far, as a token where there is one. -/
def flushWord (acc : List Char) : List Token := if acc.isEmpty then [] else [.word acc.reverse]

/-- Splits a line into tokens; "a semicolon starts a comment" (30_encoding.md R87). DESIGN CHOICE (log entry 16): spaces
and tabs separate words, and a comma or bracket is a token by itself, with or without spaces around it; R87 is silent on
both. `acc` is the word so far, reversed. -/
def tokens (acc : List Char) : List Char → List Token
  | [] => flushWord acc
  | c :: cs =>
    if c = ';' then flushWord acc
    else if c = ' ' || c = '\t' then flushWord acc ++ tokens [] cs
    else if c = ',' then flushWord acc ++ .comma :: tokens [] cs
    else if c = '[' then flushWord acc ++ .openBracket :: tokens [] cs
    else if c = ']' then flushWord acc ++ .closeBracket :: tokens [] cs
    else tokens (c :: acc) cs

/-- The value of a digit, up to sixteen of them; both cases of a hexadecimal digit are taken (log entry 16). -/
def digitValue (c : Char) : Option Nat :=
  if '0'.toNat ≤ c.toNat ∧ c.toNat ≤ '9'.toNat then some (c.toNat - '0'.toNat)
  else if 'a'.toNat ≤ c.toNat ∧ c.toNat ≤ 'f'.toNat then some (c.toNat - 'a'.toNat + 10)
  else if 'A'.toNat ≤ c.toNat ∧ c.toNat ≤ 'F'.toNat then some (c.toNat - 'A'.toNat + 10)
  else none

/-- A non-empty run of digits below `base`, most significant first. -/
def numeral (base : Nat) (cs : List Char) : Option Nat :=
  if cs.isEmpty then none
  else cs.foldl (fun acc c => acc.bind fun n => (digitValue c).bind fun d =>
    if d < base then some (base * n + d) else none) (some 0)

/-- A literal: `0x` and hexadecimal digits, or decimal digits, as in `LOADKEY 7, 39`; any number of digits, leading
zeros too (30_encoding.md R87; DESIGN CHOICE, log entry 16). -/
def literal : List Char → Option Nat
  | '0' :: 'x' :: cs => numeral 16 cs
  | cs => numeral 10 cs

/-- The payload bytes up to the closing bracket, each "as two-digit hex" (30_encoding.md R87), each a word of its own;
nothing but a comment may follow (DESIGN CHOICE, log entry 16). -/
def payloadBytes : List Token → Option (List Nat)
  | [.closeBracket] => some []
  | .word [hi, lo] :: ts => (numeral 16 [hi, lo]).bind fun b => (payloadBytes ts).map (b :: ·)
  | _ => none

/-- A bracketed payload. -/
def payloadOperand : List Token → Option (List Nat)
  | .openBracket :: ts => payloadBytes ts
  | _ => none

/-- One literal and nothing after it. -/
def literalOperand : List Token → Option Nat
  | [.word cs] => literal cs
  | _ => none

/-- Two literals with a comma between them. -/
def keyOperands : List Token → Option (Nat × Nat)
  | [.word a, .comma, .word b] => (literal a).bind fun a => (literal b).map fun b => (a, b)
  | _ => none

/-- The mnemonics of the commands and of the pseudo-instructions (30_encoding.md R87, R88). -/
def mnemonics : List String :=
  ["LOADKEY", "INIT", "UPDATE", "UPDATE_U8", "FINISH", "DIGEST", "DIGEST_U8", "DEFAULTKEY", "UPDATE_LONG"]

/-- A line by its mnemonic. "Mnemonics are upper case. An assembler rejects any other mnemonic" (30_encoding.md R87). -/
def parseMnemonic (m : List Char) (ts : List Token) : Option AsmLine :=
  if m = "LOADKEY".toList then (keyOperands ts).map fun k => .loadkey k.1 k.2
  else if m = "INIT".toList then if ts.isEmpty then some .init else none
  else if m = "UPDATE".toList then (payloadOperand ts).map .update
  else if m = "UPDATE_U8".toList then (literalOperand ts).map .updateU8
  else if m = "FINISH".toList then if ts.isEmpty then some .finish else none
  else if m = "DIGEST".toList then (payloadOperand ts).map .digest
  else if m = "DIGEST_U8".toList then (literalOperand ts).map .digestU8
  else if m = "DEFAULTKEY".toList then if ts.isEmpty then some .defaultKey else none
  else if m = "UPDATE_LONG".toList then (payloadOperand ts).map .updateLong
  else none

/-- The commands of one line of assembly text; a blank or comment line stands for none (30_encoding.md R87). -/
def assembleLine (line : String) : Option (List Instr) :=
  match tokens [] line.toList with
  | [] => some []
  | .word m :: ts => (parseMnemonic m ts).bind assemble
  | _ => none

/-- The lower-case hexadecimal digit of a value below 16. -/
def hexChar (d : Nat) : Char := if d < 10 then Char.ofNat ('0'.toNat + d) else Char.ofNat ('a'.toNat + (d - 10))

/-- The lowest `n` hexadecimal digits of a value, most significant first. -/
def hexText : Nat → Nat → List Char
  | 0, _ => []
  | n + 1, v => hexText n (v / 16) ++ [hexChar (v % 16)]

/-- Payload bytes "as two-digit hex, in stream order" (30_encoding.md R87), with the closing bracket. -/
def payloadText : List Byte → List Char
  | [] => [']']
  | [b] => hexText 2 b.toNat ++ [']']
  | b :: c :: bs => hexText 2 b.toNat ++ ' ' :: payloadText (c :: bs)

/-- The assembly text of a command, in the syntax of 30_encoding.md R87; an illegal opcode has none. -/
def lineText : Instr → Option (List Char)
  | .loadkey k0 k1 => some ("LOADKEY 0x".toList ++ hexText 16 k0.toNat ++ ", 0x".toList ++ hexText 16 k1.toNat)
  | .init => some "INIT".toList
  | .update data => some ("UPDATE [".toList ++ payloadText data)
  | .updateU8 b => some ("UPDATE_U8 0x".toList ++ hexText 2 b.toNat)
  | .finish => some "FINISH".toList
  | .digest data => some ("DIGEST [".toList ++ payloadText data)
  | .digestU8 b => some ("DIGEST_U8 0x".toList ++ hexText 2 b.toNat)
  | .illegal _ => none

/-- The command bytes of a program text, line by line (30_encoding.md R72 to R76, R87). -/
def assembleProgram (lines : List String) : Option (List Byte) :=
  (lines.mapM assembleLine).map fun is => is.flatten.flatMap encode

end Sys2Proof.Machine
end

