-- ==== Sys2Proof/Safety.lean ====
section
/-! DEFINITION. The terms that claims about the machine are stated in. -/

namespace Sys2Proof

/-- UPDATE and UPDATE_U8, the commands that absorb into the persistent engine. -/
def Instr.absorbed? : Instr → Option (List Byte)
  | .update data => some data
  | .updateU8 b => some [b]
  | .loadkey _ _ => none
  | .init => none
  | .finish => none
  | .digest _ => none
  | .digestU8 _ => none
  | .illegal _ => none

/-- What a command adds to the byte stream of the live engine (20_memory.md R51): UPDATE and UPDATE_U8 their payload,
LOADKEY, DIGEST and DIGEST_U8 nothing; INIT, FINISH and an illegal opcode end the stream. -/
def Instr.streamPart? : Instr → Option (List Byte)
  | .update data => some data
  | .updateU8 b => some [b]
  | .loadkey _ _ => some []
  | .digest _ => some []
  | .digestU8 _ => some []
  | .init => none
  | .finish => none
  | .illegal _ => none

end Sys2Proof

namespace Sys2Proof.Machine

/-- TAIL's bytes at positions NTAIL to 7 are zero (10_state.md R27). -/
def Engine.TailClear (e : Engine) : Prop := e.tail >>> (8 * e.ntail.toNat) = 0

/-- What every step keeps. -/
structure State.Inv (s : State) : Prop where
  /-- ACTIVE implies KEYS_VALID = 1 (60_exceptions.md R207). -/
  activeKeys : s.engState = .active → s.keysValid = true
  /-- The TAIL invariant (10_state.md R27). -/
  activeTail : s.engState = .active → s.eng.TailClear
  /-- `NTAIL = LENGTH mod 8` in ACTIVE (41_absorption.md R128). -/
  activeCount : s.engState = .active → s.eng.ntail.toNat = s.eng.length.toNat % 8
  /-- "CAUSE is non-zero exactly when ENG_STATE = FAULT" (10_state.md R33). -/
  causeFault : s.cause ≠ 0 ↔ s.engState = .fault
  /-- CAUSE is 0 or one of the three codes (10_state.md R33). -/
  causeCode : s.cause.toNat ≤ 3
  /-- A partially received frame is incomplete, and while there is one no response is pending and the block is not in
  FAULT (30_encoding.md R82, R84). -/
  partialFrame : s.rx ≠ [] → decode s.rx = .needMore ∧ s.tx = [] ∧ s.engState ≠ .fault
  /-- While RST = 1 the block stays as reset leaves it (70_reset_and_hazards.md R230). -/
  heldInReset : s.rst = true → s.engState = .idle ∧ s.keysValid = false ∧ s.rx = [] ∧ s.tx = []

/-- The one state check of each command (60_exceptions.md R207); an illegal opcode always fails its own. -/
def passesCheck : Instr → State → Bool
  | .loadkey _ _, _ => true
  | .init, s => s.keysValid
  | .update _, s => decide (s.engState = .active)
  | .updateU8 _, s => decide (s.engState = .active)
  | .finish, s => decide (s.engState = .active)
  | .digest _, s => s.keysValid
  | .digestU8 _, s => s.keysValid
  | .illegal _, _ => false

/-- The cause a command raises when its check fails (60_exceptions.md R207); LOADKEY has no check. -/
def failCause : Instr → Option FaultCause
  | .loadkey _ _ => none
  | .init => some .noKey
  | .update _ => some .notActive
  | .updateU8 _ => some .notActive
  | .finish => some .notActive
  | .digest _ => some .noKey
  | .digestU8 _ => some .noKey
  | .illegal _ => some .illegalOpcode

/-- The response of a command in the state that it finds (30_encoding.md R80, R81): OK, with the digest where the
command returns one, or the code of the cause it raises. -/
def commandResponse (i : Instr) (s : State) : List Byte :=
  if passesCheck i s then
    match i with
    | .loadkey _ _ => [0x00]
    | .init => [0x00]
    | .update _ => [0x00]
    | .updateU8 _ => [0x00]
    | .finish => 0x00 :: bytesLE 8 (finalize s.eng)
    | .digest data => 0x00 :: bytesLE 8 (sipHash24 s.k0 s.k1 data)
    | .digestU8 b => 0x00 :: bytesLE 8 (sipHash24 s.k0 s.k1 [b])
    | .illegal _ => []
  else (failCause i).toList.map FaultCause.code

/-- Runs commands one after another, stopping at the first that gives no next state (20_memory.md R61). -/
def runCommands : List Instr → State → Host.Outcome State Fault Refusal
  | [], s => .next s
  | i :: is, s =>
    match exec i s with
    | .next t => runCommands is t
    | .fault r => .fault r
    | .refused r => .refused r

/-- `lanes_j` of the stream characterisation (41_absorption.md R128). -/
def streamLanes (w : Lanes) (msg : List Byte) : Nat → Lanes
  | 0 => w
  | j + 1 => compress (streamLanes w msg j) (le64 (slice msg (8 * j) (8 * j + 8)))

/-- The engine registers as a function of the keys and the message M alone (41_absorption.md R128). -/
def streamEngine (k0 k1 : Word) (msg : List Byte) : Engine :=
  { lanes := streamLanes (keyInit k0 k1).lanes msg (msg.length / 8)
    tail := le64 (slice msg (8 * (msg.length / 8)) msg.length)
    ntail := BitVec.ofNat 3 (msg.length % 8)
    length := BitVec.ofNat 64 msg.length }

/-- The command bytes the host has still to get taken, in order. -/
def offeredBytes (acts : List HostAct) : List Byte :=
  acts.flatMap fun
    | .send bytes => bytes
    | .take => []
    | .rst _ => []

/-- The step from `s` to `t` is the host's RST: RST is asserted, or returns to 0 (70_reset_and_hazards.md R230). -/
def RstStep (s t : State) : Prop :=
  ∃ level acts, nextRst s.host = some (level, acts) ∧ (level = true ∨ s.rst = true) ∧
    t = applyRst level { s with host := acts }

/-- The step from `s` to `t` is the command `i`, run on the state `s0` in which its frame has just been received: the
block can take a byte, the partial frame and the offered bytes begin with one whole frame of `i`, and `s0` is `s` but
for the receiver's partial frame, now empty, and the host's acts, which still offer the bytes after the frame. -/
def CommandStep (s t : State) (i : Instr) (s0 : State) : Prop :=
  s.cmdReady = true ∧
  (∃ bytes left acts, s.host = .send bytes :: acts ∧ bytes ≠ [] ∧ decode (s.rx ++ bytes) = .frame i left ∧
    s0 = { s with rx := [], host := offerRest left acts }) ∧
  exec i s0 = .next t

/-- Two states that no port tells apart, now or later: they may differ in registers that hold no value (the engine
registers outside ACTIVE, the keys while KEYS_VALID = 0; 10_state.md R29, R30) and in the model's counter. -/
structure SameToHost (s t : State) : Prop where
  keysValid : s.keysValid = t.keysValid
  keys : s.keys? = t.keys?
  engState : s.engState = t.engState
  engine : s.engine? = t.engine?
  cause : s.cause = t.cause
  rx : s.rx = t.rx
  tx : s.tx = t.tx
  rst : s.rst = t.rst
  host : s.host = t.host
  delivered : s.delivered = t.delivered

/-- Two outcomes that no port tells apart. -/
def SameOutcome : Host.Outcome State Fault Refusal → Host.Outcome State Fault Refusal → Prop
  | .next s, .next t => SameToHost s t
  | .fault r, .fault q => r = q
  | .refused r, .refused q => r = q
  | _, _ => False

end Sys2Proof.Machine
end

