-- ==== Sys2Proof/Certificates/Slice0/Obligations.lean ====
section
/-! DEFINITION. The statements for the provers.

In FAULT the block accepts no frame (60_exceptions.md R205), and `step` runs no command there. Where a statement about
`exec` has no premise that keeps FAULT out, what it says of FAULT is the model's (log entry 14), and so is what it says
of terms that are no frame (log entry 15). -/

open Sys2Proof Sys2Proof.Machine

/-! ### Encoding -/

/-- Frames written out byte by byte from 30_encoding.md R72 to R76 decode to the commands they stand for, one for every
opcode, an incomplete frame needs more, and an illegal byte is a frame of its own. -/
def Obligations.WrittenFramesDecode : Prop :=
  decode [0x01, 0x00, 0x01, 0x02, 0x03, 0x04, 0x05, 0x06, 0x07, 0x08, 0x09, 0x0a, 0x0b, 0x0c, 0x0d, 0x0e, 0x0f]
      = .frame (.loadkey 0x0706050403020100 0x0f0e0d0c0b0a0908) [] ∧
  decode [0x02] = .frame .init [] ∧
  decode [0x03, 0x03, 0x00, 0x00, 0x00, 0x01, 0x02, 0x03] = .frame (.update [0x01, 0x02, 0x03]) [] ∧
  decode [0x04, 0xff] = .frame (.updateU8 0xff) [] ∧
  decode [0x05, 0x02] = .frame .finish [0x02] ∧
  decode [0x06, 0x01, 0x00, 0x00, 0x00, 0x2a] = .frame (.digest [0x2a]) [] ∧
  decode [0x07, 0x00] = .frame (.digestU8 0x00) [] ∧
  decode [0x08] = .frame (.illegal 0x08) [] ∧
  decode [0x03, 0x05, 0x00] = .needMore ∧
  decode [] = .needMore

/-- Decode and encode agree: the frame of every well-formed command, with every operand at every value, decodes to that
command, whatever bytes follow it, and those are left (30_encoding.md R84). -/
def Obligations.DecodeOfEncode : Prop :=
  ∀ (i : Instr) (rest : List Byte), i.wellFormed = true → decode (encode i ++ rest) = .frame i rest

/-- The decoder accepts encoded well-formed commands only: no two byte sequences are the same frame, and every frame it
returns is well-formed. -/
def Obligations.DecodeOnlyEncodedFrames : Prop :=
  ∀ (bs : List Byte) (i : Instr) (rest : List Byte),
    decode bs = .frame i rest → i.wellFormed = true ∧ bs = encode i ++ rest

/-- A frame is complete only with its last byte: every proper beginning of it needs more bytes (30_encoding.md R84). -/
def Obligations.FrameBeginningNeedsMore : Prop :=
  ∀ (i : Instr) (k : Nat), i.wellFormed = true → k < (encode i).length → decode ((encode i).take k) = .needMore

/-- Frame lengths by format: F0 1 byte, FB 2, FK 17, FL 5 + n, an illegal opcode 1 (30_encoding.md R77). -/
def Obligations.FrameLengthByFormat : Prop :=
  ∀ (bs : List Byte) (i : Instr) (rest : List Byte), decode bs = .frame i rest →
    bs.length = rest.length +
      (match i with
      | .loadkey _ _ => 17
      | .init => 1
      | .update data => 5 + data.length
      | .updateU8 _ => 2
      | .finish => 1
      | .digest data => 5 + data.length
      | .digestU8 _ => 2
      | .illegal _ => 1)

/-- The first byte alone decides that a frame is illegal: exactly 0x00 and 0x08..0xFF are, whatever follows
(30_encoding.md R76, R78). -/
def Obligations.IllegalOpcodesDecode : Prop :=
  ∀ (op : Byte) (bs : List Byte),
    ((op = 0x00 ∨ 0x08 ≤ op.toNat) → decode (op :: bs) = .frame (.illegal op) bs) ∧
    (¬ (op = 0x00 ∨ 0x08 ≤ op.toNat) → ∀ o rest, decode (op :: bs) ≠ .frame (.illegal o) rest)

/-! ### The permutation -/

/-- Rotate left moves bit (i - s) mod 64 of its operand to bit i; it loses no bit; by 32 it swaps the halves; and the
two examples (40_permutation.md R100). -/
def Obligations.RotateLeftBits : Prop :=
  (∀ (a : Word) (s i : Nat), 1 ≤ s → s ≤ 63 → i < 64 → (rotl64 a s).getLsbD i = a.getLsbD ((i + 64 - s) % 64)) ∧
  (∀ (a : Word) (s : Nat), 1 ≤ s → s ≤ 63 → (rotl64 a s = 0 ↔ a = 0)) ∧
  (∀ a : Word, rotl64 a 32 = a.extractLsb' 0 32 ++ a.extractLsb' 32 32) ∧
  rotl64 0x8000000000000001 13 = 0x0000000000003000 ∧
  rotl64 0x0123456789abcdef 32 = 0x89abcdef01234567

/-- SipRound, lane by lane, in the source's order of steps, with Lean's own rotation in the place of the model's; the
all-zero lanes are a fixed point; and the worked example (40_permutation.md R102). -/
def Obligations.SipRoundLanes : Prop :=
  (∀ (v : Lanes) (a b c d : Word), a = v.v0 + v.v1 → b = v.v1.rotateLeft 13 ^^^ a → c = v.v2 + v.v3 →
    d = v.v3.rotateLeft 16 ^^^ c →
    (sipRound v).v0 = a.rotateLeft 32 + d ∧
    (sipRound v).v1 = b.rotateLeft 17 ^^^ (c + b) ∧
    (sipRound v).v2 = (c + b).rotateLeft 32 ∧
    (sipRound v).v3 = d.rotateLeft 21 ^^^ (a.rotateLeft 32 + d)) ∧
  sipRound { v0 := 0, v1 := 0, v2 := 0, v3 := 0 } = { v0 := 0, v1 := 0, v2 := 0, v3 := 0 } ∧
  sipRound { v0 := 1, v1 := 0, v2 := 0, v3 := 0 } =
    { v0 := 0x0000000100000000, v1 := 0x0000000000020001, v2 := 0x0000000100000000, v3 := 0x0000000100000000 }

/-- Compress: the block enters at lane 3, two SipRounds run, the same block enters at lane 0; the zero block still runs
both rounds, which do not leave all lanes as they were; and the worked example (40_permutation.md R105). -/
def Obligations.CompressRule : Prop :=
  (∀ (v : Lanes) (m : Word) (w : Lanes), w = sipRound (sipRound { v with v3 := v.v3 ^^^ m }) →
    compress v m = { v0 := w.v0 ^^^ m, v1 := w.v1, v2 := w.v2, v3 := w.v3 }) ∧
  (∀ v : Lanes, compress v 0 = rounds v 2) ∧ (∃ v : Lanes, compress v 0 ≠ v) ∧
  compress (keyInit 0x0706050403020100 0x0f0e0d0c0b0a0908).lanes 0x0706050403020100 =
    { v0 := 0x4a017198de0a59e0, v1 := 0x0d52f6f62a4f59a4, v2 := 0x634cb3577b01fd3d, v3 := 0xa5224d6f55c7d9c8 }

/-- SipRound is a bijection on the lane states (40_permutation.md R103). -/
def Obligations.SipRoundBijective : Prop := Function.Bijective sipRound

/-- Compress is a bijection of the lanes for every block: no block can collapse two lane states into one (follows from
40_permutation.md R103 and R105). -/
def Obligations.CompressBijective : Prop := ∀ m : Word, Function.Bijective fun v => compress v m

/-! ### Absorption -/

/-- Absorb keeps the TAIL invariant and NTAIL below 8 (41_absorption.md R126). -/
def Obligations.AbsorbKeepsTailClear : Prop :=
  ∀ (e : Engine) (bs : List Byte), e.TailClear → (absorb e bs).TailClear ∧ (absorb e bs).ntail.toNat ≤ 7

/-- Absorbing no bytes changes nothing in an engine that meets the TAIL invariant (41_absorption.md R125). -/
def Obligations.AbsorbEmpty : Prop := ∀ e : Engine, e.TailClear → absorb e [] = e

/-- Absorb, step by step: LENGTH counts all bytes; bytes that do not complete the pending block land above the pending
ones, with no mixing; bytes that complete it are compressed with them, and the rest is absorbed with nothing pending;
with nothing pending, a whole word is compressed and the rest absorbed, and fewer than eight bytes become the new tail
(41_absorption.md R121, R123). -/
def Obligations.AbsorbSteps : Prop :=
  (∀ (e : Engine) (bs : List Byte), (absorb e bs).length = e.length + BitVec.ofNat 64 bs.length) ∧
  (∀ (e : Engine) (bs : List Byte), 0 < e.ntail.toNat → e.ntail.toNat + bs.length < 8 →
    (absorb e bs).lanes = e.lanes ∧
    (absorb e bs).tail = e.tail ||| (le64 bs <<< (8 * e.ntail.toNat)) ∧
    (absorb e bs).ntail.toNat = e.ntail.toNat + bs.length) ∧
  (∀ (e e' : Engine) (head rest : List Byte), 0 < e.ntail.toNat → head.length = 8 - e.ntail.toNat →
    e' = { e with lanes := compress e.lanes (e.tail ||| (le64 head <<< (8 * e.ntail.toNat))), tail := 0, ntail := 0 } →
    (absorb e (head ++ rest)).lanes = (absorb e' rest).lanes ∧
    (absorb e (head ++ rest)).tail = (absorb e' rest).tail ∧
    (absorb e (head ++ rest)).ntail = (absorb e' rest).ntail) ∧
  (∀ (e e' : Engine) (head rest : List Byte), e.ntail = 0 → head.length = 8 →
    e' = { e with lanes := compress e.lanes (le64 head) } →
    (absorb e (head ++ rest)).lanes = (absorb e' rest).lanes ∧
    (absorb e (head ++ rest)).tail = (absorb e' rest).tail ∧
    (absorb e (head ++ rest)).ntail = (absorb e' rest).ntail) ∧
  (∀ (e : Engine) (bs : List Byte), e.ntail = 0 → bs.length < 8 →
    (absorb e bs).lanes = e.lanes ∧ (absorb e bs).tail = le64 bs ∧ (absorb e bs).ntail.toNat = bs.length)

/-- Exact completion: the completed block is compressed at once and nothing stays pending (41_absorption.md R124). -/
def Obligations.AbsorbExactCompletion : Prop :=
  ∀ (e : Engine) (bs : List Byte), 0 < e.ntail.toNat → bs.length = 8 - e.ntail.toNat →
    (absorb e bs).lanes = compress e.lanes (e.tail ||| (le64 bs <<< (8 * e.ntail.toNat))) ∧
    (absorb e bs).tail = 0 ∧ (absorb e bs).ntail = 0

/-- Chunking invariance: absorbing a and then b is absorbing a ++ b, in all seven fields, for every engine record; and
any split of a message into UPDATE and UPDATE_U8 commands leaves the registers that one UPDATE of the whole message
leaves (41_absorption.md R127). -/
def Obligations.ChunkingInvariance : Prop :=
  (∀ (e : Engine) (a b : List Byte), absorb (absorb e a) b = absorb e (a ++ b)) ∧
  (∀ (s : State) (is : List Instr) (chunks : List (List Byte)), s.engState = .active → is ≠ [] →
    is.map Instr.absorbed? = chunks.map some →
    ∃ t u, runCommands is s = .next t ∧ exec (.update chunks.flatten) s = .next u ∧
      t.eng = u.eng ∧ t.engState = .active ∧ u.engState = .active)

/-- The stream characterisation: after INIT and any commands that do not end the stream (UPDATE and UPDATE_U8, which add
their payloads, and LOADKEY, DIGEST and DIGEST_U8, which add nothing, in any order), with M all the payloads in order,
the engine registers are the given function of the keys at INIT and of M, and NTAIL = LENGTH mod 8
(41_absorption.md R128). -/
def Obligations.StreamCharacterisation : Prop :=
  ∀ (s : State) (is : List Instr) (chunks : List (List Byte)), s.keysValid = true →
    is.map Instr.streamPart? = chunks.map some →
    ∃ t, runCommands (.init :: is) s = .next t ∧ t.engState = .active ∧
      t.eng = streamEngine s.k0 s.k1 chunks.flatten ∧
      t.eng.ntail.toNat = t.eng.length.toNat % 8

/-- LENGTH counts every absorbed byte modulo 2^64, without fault; the wrap shows in no digest, since a digest depends on
LENGTH modulo 256 alone; and the example (41_absorption.md R129). -/
def Obligations.LengthWraps : Prop :=
  (∀ (e : Engine) (bs : List Byte), (absorb e bs).length.toNat = (e.length.toNat + bs.length) % 2 ^ 64) ∧
  (∀ (e : Engine) (l : Word), l.toNat % 256 = e.length.toNat % 256 → finalize { e with length := l } = finalize e) ∧
  (∀ (s : State), s.engState = .active → s.eng.length = 0xffffffffffffffff → s.eng.ntail = 7 →
    ∃ t, exec (.update [0x11]) s = .next t ∧ t.tx = s.tx ++ [0x00] ∧ t.engState = .active ∧
      t.eng.length = 0 ∧ t.eng.ntail = 0)

/-! ### Finalization -/

/-- The pad word of an engine that meets the TAIL invariant: LENGTH mod 256 in bits 63:56 and TAIL's bytes in bits 55:0;
with nothing pending it is (LENGTH mod 256) << 56, and 0, which is still compressed, when LENGTH is a multiple of 256;
two lengths that differ by a multiple of 256 give the same pad word (42_finalization.md R142). -/
def Obligations.PadWordParts : Prop :=
  ∀ e : Engine, e.TailClear →
    (e.padWord >>> 56).toNat = e.length.toNat % 256 ∧
    e.padWord.extractLsb' 0 56 = e.tail.extractLsb' 0 56 ∧
    (e.ntail = 0 → e.padWord = BitVec.ofNat 64 (e.length.toNat % 256) <<< 56) ∧
    (e.ntail = 0 → e.length.toNat % 256 = 0 → e.padWord = 0 ∧
      finalize e = (fun v : Lanes => v.v0 ^^^ v.v1 ^^^ v.v2 ^^^ v.v3) (rounds (twist (compress e.lanes 0)) 4)) ∧
    (∀ l : Word, l.toNat % 256 = e.length.toNat % 256 → Engine.padWord { e with length := l } = e.padWord)

/-- Finalize's five steps: the pad word is compressed, 0xff enters lane 2, four SipRounds run, and the digest is the XOR
of the lanes; NTAIL does not enter it (42_finalization.md R141). -/
def Obligations.FinalizeSteps : Prop :=
  (∀ (e : Engine) (v w : Lanes),
    v = compress e.lanes ((BitVec.ofNat 64 (e.length.toNat % 256) <<< 56) ||| e.tail) →
    w = sipRound (sipRound (sipRound (sipRound { v with v2 := v.v2 ^^^ 0x00000000000000ff }))) →
    finalize e = w.v0 ^^^ w.v1 ^^^ w.v2 ^^^ w.v3) ∧
  (∀ (e : Engine) (n : BitVec 3), finalize { e with ntail := n } = finalize e)

/-- The digest function: INIT under the keys, any split of M into UPDATE and UPDATE_U8 commands, and FINISH respond, in
order, one 00 for each but the last, and for the last 00 and SipHash24(k0, k1, M), least significant byte first; the
engine is consumed. DIGEST and DIGEST_U8 return SipHash24 of their payload (42_finalization.md R147). -/
def Obligations.FinishReturnsSipHash : Prop :=
  (∀ (s : State) (is : List Instr) (chunks : List (List Byte)), s.keysValid = true →
    is.map Instr.absorbed? = chunks.map some →
    ∃ t, runCommands (.init :: is ++ [.finish]) s = .next t ∧ t.engState = .idle ∧
      t.tx = s.tx ++ List.replicate (1 + is.length) 0x00
        ++ 0x00 :: bytesLE 8 (sipHash24 s.k0 s.k1 chunks.flatten)) ∧
  (∀ (s : State) (data : List Byte), s.keysValid = true →
    exec (.digest data) s = .next { s with tx := s.tx ++ 0x00 :: bytesLE 8 (sipHash24 s.k0 s.k1 data) }) ∧
  (∀ (s : State) (b : Byte), s.keysValid = true →
    exec (.digestU8 b) s = .next { s with tx := s.tx ++ 0x00 :: bytesLE 8 (sipHash24 s.k0 s.k1 [b]) })

/-- One-shot equivalence: DIGEST responds with the digest that INIT; UPDATE; FINISH returns in its FINISH response, and
both are SipHash24 of the payload; the three commands leave IDLE, DIGEST leaves everything but the response channel as
it was (43_factory.md R167). -/
def Obligations.OneShotEquivalence : Prop :=
  ∀ (s : State) (data : List Byte), s.keysValid = true →
    ∃ t u resp, exec (.digest data) s = .next t ∧ runCommands [.init, .update data, .finish] s = .next u ∧
      resp = 0x00 :: bytesLE 8 (sipHash24 s.k0 s.k1 data) ∧
      t = { s with tx := s.tx ++ resp } ∧ u.tx = s.tx ++ [0x00, 0x00] ++ resp ∧ u.engState = .idle

/-! ### The commands: where each completes, and with what -/

/-- LOADKEY completes in IDLE and in ACTIVE, in which the block accepts a frame: K0, K1 and KEYS_VALID are written, the
response is 00, and nothing else changes, a live engine included; the same pair twice leaves the registers that once
leaves; and the worked example (43_factory.md R160). -/
def Obligations.LoadkeyCompletes : Prop :=
  (∀ k0 k1 : Word, decode (0x01 :: (bytesLE 8 k0 ++ bytesLE 8 k1)) = .frame (.loadkey k0 k1) []) ∧
  (∀ (s : State) (k0 k1 : Word), s.engState ≠ .fault →
    exec (.loadkey k0 k1) s = .next { s with k0 := k0, k1 := k1, keysValid := true, tx := s.tx ++ [0x00] }) ∧
  (∀ (s t u : State) (k0 k1 : Word), s.engState ≠ .fault → exec (.loadkey k0 k1) s = .next t →
    exec (.loadkey k0 k1) t = .next u → u = { t with tx := u.tx }) ∧
  (∃ t, core.run 1 { State.reset with host := [.send [0x01, 0x00, 0x01, 0x02, 0x03, 0x04, 0x05, 0x06, 0x07, 0x08, 0x09,
      0x0a, 0x0b, 0x0c, 0x0d, 0x0e, 0x0f]] } = .next t ∧
    t.k0 = 0x0706050403020100 ∧ t.k1 = 0x0f0e0d0c0b0a0908 ∧ t.keysValid = true ∧ t.tx = [0x00])

/-- INIT completes when KEYS_VALID = 1, in IDLE and in ACTIVE: the seven engine registers take KeyInit's values,
ENG_STATE is ACTIVE, the response is 00, and nothing else changes; with KEYS_VALID = 0 it raises NO_KEY; and the worked
example, with STATUS 0005 once the response is taken (43_factory.md R161, R163, R164). -/
def Obligations.InitCompletes : Prop :=
  decode [0x02] = .frame .init [] ∧
  (∀ s : State, s.keysValid = true → s.engState ≠ .fault →
    exec .init s = .next { s with
      eng :=
        { lanes :=
            { v0 := s.k0 ^^^ 0x736f6d6570736575, v1 := s.k1 ^^^ 0x646f72616e646f6d,
              v2 := s.k0 ^^^ 0x6c7967656e657261, v3 := s.k1 ^^^ 0x7465646279746573 },
          tail := 0, ntail := 0, length := 0 },
      engState := .active, tx := s.tx ++ [0x00] }) ∧
  (∀ s : State, s.keysValid = false → s.engState ≠ .fault →
    exec .init s = .next { s with cause := 0x02, engState := .fault, tx := s.tx ++ [0x02] }) ∧
  (∃ t, core.run 2 { State.reset with
        k0 := 0x0706050403020100, k1 := 0x0f0e0d0c0b0a0908, keysValid := true,
        host := [.send [0x02], .take] } = .next t ∧
    t.eng.lanes = { v0 := 0x7469686173716475, v1 := 0x6b617f6d656e6665, v2 := 0x6b7f62616d677361,
                    v3 := 0x7b6b696e727e6c7b } ∧
    t.eng.tail = 0 ∧ t.eng.ntail = 0 ∧ t.eng.length = 0 ∧ t.status = 0x0005 ∧ t.delivered = [0x00])

/-- UPDATE completes in ACTIVE for every payload: the engine absorbs it, the response is 00, and nothing else changes;
outside ACTIVE it raises NOT_ACTIVE; the empty payload leaves every register, an exact completion empties the tail, and
fewer bytes than complete a block compress nothing; its encoding, and the worked example (41_absorption.md R120). -/
def Obligations.UpdateCompletes : Prop :=
  (∀ data : List Byte, data.length ≤ 2 ^ 32 - 1 →
    decode (0x03 :: (bytesLE 4 (BitVec.ofNat 32 data.length) ++ data)) = .frame (.update data) []) ∧
  (∀ (s : State) (data : List Byte), s.engState = .active →
    exec (.update data) s = .next { s with eng := absorb s.eng data, tx := s.tx ++ [0x00] }) ∧
  (∀ (s : State) (data : List Byte), s.engState ≠ .active →
    exec (.update data) s = .next { s with cause := 0x03, engState := .fault, tx := s.tx ++ [0x03] }) ∧
  (∀ s : State, s.engState = .active → s.eng.TailClear →
    exec (.update []) s = .next { s with tx := s.tx ++ [0x00] }) ∧
  (∀ (e : Engine) (data : List Byte), 0 < e.ntail.toNat → data.length = 8 - e.ntail.toNat →
    (absorb e data).tail = 0 ∧ (absorb e data).ntail = 0) ∧
  (∀ (e : Engine) (data : List Byte), data.length < 8 - e.ntail.toNat → (absorb e data).lanes = e.lanes) ∧
  absorb (keyInit 0x0706050403020100 0x0f0e0d0c0b0a0908) [0x00, 0x01, 0x02] =
    { keyInit 0x0706050403020100 0x0f0e0d0c0b0a0908 with tail := 0x0000000000020100, ntail := 3, length := 3 }

/-- UPDATE_U8 b completes in ACTIVE, with exactly the effect of UPDATE [b]; with NTAIL below 7 the byte lands at
TAIL[8*NTAIL+7 : 8*NTAIL] and no block is compressed, with NTAIL = 7 a block is; outside ACTIVE it raises NOT_ACTIVE;
its encoding, and the worked example (41_absorption.md R130). -/
def Obligations.UpdateU8Completes : Prop :=
  (∀ b : Byte, decode [0x04, b] = .frame (.updateU8 b) []) ∧
  (∀ (s : State) (b : Byte), s.engState = .active →
    exec (.updateU8 b) s = .next { s with eng := absorb s.eng [b], tx := s.tx ++ [0x00] }) ∧
  (∀ (s : State) (b : Byte), exec (.updateU8 b) s = exec (.update [b]) s) ∧
  (∀ (e : Engine) (b : Byte), e.TailClear → e.ntail.toNat < 7 →
    (absorb e [b]).lanes = e.lanes ∧ (absorb e [b]).tail.extractLsb' (8 * e.ntail.toNat) 8 = b ∧
    (absorb e [b]).ntail.toNat = e.ntail.toNat + 1) ∧
  (∀ (e : Engine) (b : Byte), e.ntail.toNat = 7 →
    (absorb e [b]).lanes = compress e.lanes (e.tail ||| (b.setWidth 64 <<< 56)) ∧
    (absorb e [b]).tail = 0 ∧ (absorb e [b]).ntail = 0) ∧
  (∀ (s : State) (b : Byte), s.engState ≠ .active →
    exec (.updateU8 b) s = .next { s with cause := 0x03, engState := .fault, tx := s.tx ++ [0x03] }) ∧
  (∀ e : Engine, e.tail = 0x0000000000020100 → e.ntail = 3 →
    absorb e [0x03] = { e with tail := 0x0000000003020100, ntail := 4, length := e.length + 1 })

/-- FINISH completes in ACTIVE: the response is 00 and the digest, least significant byte first; ENG_STATE is IDLE; the
engine registers hold no value (free values, whatever the model's counter); the keys, KEYS_VALID, CAUSE and the rest are
unchanged; outside ACTIVE it raises NOT_ACTIVE; with no UPDATE the digest is the empty message's, and a following INIT
starts an engine under the same keys; its encoding, and the worked example (42_finalization.md R140). -/
def Obligations.FinishCompletes : Prop :=
  decode [0x05] = .frame .finish [] ∧
  (∀ s : State, s.engState = .active →
    ∃ t, exec .finish s = .next t ∧ t.engine? = none ∧
      t = { s with eng := t.eng, fresh := t.fresh, engState := .idle, tx := s.tx ++
        [0x00, (finalize s.eng).extractLsb' 0 8, (finalize s.eng).extractLsb' 8 8, (finalize s.eng).extractLsb' 16 8,
          (finalize s.eng).extractLsb' 24 8, (finalize s.eng).extractLsb' 32 8, (finalize s.eng).extractLsb' 40 8,
          (finalize s.eng).extractLsb' 48 8, (finalize s.eng).extractLsb' 56 8] }) ∧
  (∀ s : State, s.engState ≠ .active →
    exec .finish s = .next { s with cause := 0x03, engState := .fault, tx := s.tx ++ [0x03] }) ∧
  (∀ s : State, s.keysValid = true → ∃ t u, runCommands [.init, .finish] s = .next t ∧
    t.tx = s.tx ++ 0x00 :: 0x00 :: bytesLE 8 (sipHash24 s.k0 s.k1 []) ∧
    exec .init t = .next u ∧ u.eng = keyInit s.k0 s.k1) ∧
  (∃ t, runCommands [.loadkey 0x0706050403020100 0x0f0e0d0c0b0a0908, .init,
      .update [0x00, 0x01, 0x02, 0x03, 0x04, 0x05, 0x06, 0x07, 0x08, 0x09, 0x0a, 0x0b, 0x0c, 0x0d, 0x0e], .finish]
      State.reset = .next t ∧
    t.tx = [0x00, 0x00, 0x00, 0x00, 0xe5, 0x45, 0xbe, 0x49, 0x61, 0xca, 0x29, 0xa1])

/-- DIGEST completes when KEYS_VALID = 1, in IDLE and in ACTIVE: it responds with OK and the digest of its payload under
the keys, and changes nothing but the response channel; with KEYS_VALID = 0 it raises NO_KEY; and the worked example
(43_factory.md R165). -/
def Obligations.DigestCompletes : Prop :=
  (∀ data : List Byte, data.length ≤ 2 ^ 32 - 1 →
    decode (0x06 :: (bytesLE 4 (BitVec.ofNat 32 data.length) ++ data)) = .frame (.digest data) []) ∧
  (∀ (s : State) (data : List Byte), s.keysValid = true → s.engState ≠ .fault →
    ∃ d, d = finalize (absorb (keyInit s.k0 s.k1) data) ∧
      exec (.digest data) s = .next { s with tx := s.tx ++
        [0x00, d.extractLsb' 0 8, d.extractLsb' 8 8, d.extractLsb' 16 8, d.extractLsb' 24 8, d.extractLsb' 32 8,
          d.extractLsb' 40 8, d.extractLsb' 48 8, d.extractLsb' 56 8] }) ∧
  (∀ (s : State) (data : List Byte), s.keysValid = false → s.engState ≠ .fault →
    exec (.digest data) s = .next { s with cause := 0x02, engState := .fault, tx := s.tx ++ [0x02] }) ∧
  (∃ t, core.run 1 { State.reset with
        k0 := 0x0706050403020100, k1 := 0x0f0e0d0c0b0a0908, keysValid := true,
        host := [.send [0x06, 0x00, 0x00, 0x00, 0x00]] } = .next t ∧
    t.tx = [0x00, 0x31, 0x0e, 0x0e, 0xdd, 0x47, 0xdb, 0x6f, 0x72])

/-- DIGEST_U8 b completes when KEYS_VALID = 1, in IDLE and in ACTIVE, and does exactly what DIGEST [b] does; with
KEYS_VALID = 0 it raises NO_KEY; and the worked example (43_factory.md R166). -/
def Obligations.DigestU8Completes : Prop :=
  (∀ b : Byte, decode [0x07, b] = .frame (.digestU8 b) []) ∧
  (∀ (s : State) (b : Byte), s.keysValid = true → s.engState ≠ .fault →
    ∃ d, d = finalize (absorb (keyInit s.k0 s.k1) [b]) ∧
      exec (.digestU8 b) s = .next { s with tx := s.tx ++
        [0x00, d.extractLsb' 0 8, d.extractLsb' 8 8, d.extractLsb' 16 8, d.extractLsb' 24 8, d.extractLsb' 32 8,
          d.extractLsb' 40 8, d.extractLsb' 48 8, d.extractLsb' 56 8] }) ∧
  (∀ (s : State) (b : Byte), exec (.digestU8 b) s = exec (.digest [b]) s) ∧
  (∀ (s : State) (b : Byte), s.keysValid = false → s.engState ≠ .fault →
    exec (.digestU8 b) s = .next { s with cause := 0x02, engState := .fault, tx := s.tx ++ [0x02] }) ∧
  (∃ t, core.run 1 { State.reset with
        k0 := 0x0706050403020100, k1 := 0x0f0e0d0c0b0a0908, keysValid := true,
        host := [.send [0x07, 0x00]] } = .next t ∧
    t.tx = [0x00, 0xfd, 0x67, 0xdc, 0x93, 0xc5, 0x39, 0xf8, 0x74])

/-- An illegal opcode's own effect is its fault entry, in IDLE and in ACTIVE: CAUSE and the response are 01, ENG_STATE
is FAULT, nothing else changes; the receiver takes that one byte and leaves the rest offered; and the example, byte 08
after LOADKEY 0, 0 (60_exceptions.md R201). -/
def Obligations.IllegalOpcodeCompletes : Prop :=
  (∀ (s : State) (op : Byte), (op = 0x00 ∨ 0x08 ≤ op.toNat) → s.engState ≠ .fault →
    exec (.illegal op) s = .next { s with cause := 0x01, engState := .fault, tx := s.tx ++ [0x01] }) ∧
  (∀ (s : State) (op : Byte) (bs : List Byte) (acts : List HostAct), (op = 0x00 ∨ 0x08 ≤ op.toNat) →
    s.cmdReady = true → s.rx = [] → s.host = .send (op :: bs) :: acts →
    ∃ t, step s = .next t ∧ t.cause = 0x01 ∧ t.engState = .fault ∧ t.tx = [0x01] ∧ t.rx = [] ∧
      offeredBytes t.host = bs ++ offeredBytes acts) ∧
  (∃ t, core.run 4 { State.reset with host := [.send (0x01 :: List.replicate 16 0x00), .take, .send [0x08], .take] } =
      .next t ∧ t.delivered = [0x00, 0x01] ∧ t.status = 0x0106)

/-! ### Faults -/

/-- INIT, DIGEST and DIGEST_U8 raise NO_KEY when KEYS_VALID = 0, with that and nothing else changed, and only after
their whole frame has been received (a proper beginning of it is only kept); and the example, INIT after reset
(60_exceptions.md R202). -/
def Obligations.NoKeyFault : Prop :=
  (∀ (s : State) (i : Instr), s.keysValid = false → failCause i = some .noKey →
    exec i s = .next { s with cause := 0x02, engState := .fault, tx := s.tx ++ [0x02] }) ∧
  (∀ (s : State) (i : Instr) (k : Nat) (acts : List HostAct), i.wellFormed = true → failCause i = some .noKey →
    s.cmdReady = true → s.rx = [] → 0 < k → k < (encode i).length → s.host = .send ((encode i).take k) :: acts →
    step s = .next { s with rx := (encode i).take k, host := acts }) ∧
  (failCause .init = some .noKey ∧ (∀ data, failCause (.digest data) = some .noKey) ∧
    ∀ b, failCause (.digestU8 b) = some .noKey) ∧
  (∃ t, core.run 2 { State.reset with host := [.send [0x02], .take] } = .next t ∧ t.delivered = [0x02] ∧
    t.status = 0x0202)

/-- UPDATE, UPDATE_U8 and FINISH raise NOT_ACTIVE when ENG_STATE = IDLE, with that and nothing else changed, and only
after their whole frame has been received; and the example, UPDATE_U8 after FINISH (60_exceptions.md R203). -/
def Obligations.NotActiveFault : Prop :=
  (∀ (s : State) (i : Instr), s.engState = .idle → failCause i = some .notActive →
    exec i s = .next { s with cause := 0x03, engState := .fault, tx := s.tx ++ [0x03] }) ∧
  (∀ (s : State) (i : Instr) (k : Nat) (acts : List HostAct), i.wellFormed = true → failCause i = some .notActive →
    s.cmdReady = true → s.rx = [] → 0 < k → k < (encode i).length → s.host = .send ((encode i).take k) :: acts →
    step s = .next { s with rx := (encode i).take k, host := acts }) ∧
  ((∀ data, failCause (.update data) = some .notActive) ∧ (∀ b, failCause (.updateU8 b) = some .notActive) ∧
    failCause .finish = some .notActive) ∧
  (∃ t, core.run 18 { State.reset with host :=
      [.send [0x01, 0x07, 0, 0, 0, 0, 0, 0, 0, 0x27, 0, 0, 0, 0, 0, 0, 0], .take, .send [0x02], .take,
        .send [0x04, 0x2a], .take, .send [0x05], .take, .take, .take, .take, .take, .take, .take, .take, .take,
        .send [0x04, 0x01], .take] } = .next t ∧
    t.delivered = [0x00, 0x00, 0x00, 0x00, 0xc7, 0xf6, 0x34, 0x49, 0xff, 0xa7, 0x0a, 0xa6, 0x03] ∧ t.status = 0x0306)

/-- Fault entry: a command whose check fails writes CAUSE with its code and ENG_STATE with FAULT, sends that code as its
one-byte response, and has no other effect: every register, KEYS_VALID among them, stays (60_exceptions.md R204, R206).
STATUS then shows STATE = 2 and CAUSE. -/
def Obligations.FaultEntryWrites : Prop :=
  ∀ (i : Instr) (s : State), passesCheck i s = false →
    ∃ c t, failCause i = some c ∧ exec i s = .next t ∧
      t = { s with cause := c.code, engState := .fault, tx := s.tx ++ [c.code] } ∧
      t.status.extractLsb' 0 2 = 2 ∧ t.status.extractLsb' 8 8 = c.code ∧
      (c.code = 0x01 ∨ c.code = 0x02 ∨ c.code = 0x03)

/-- Every command in a state that passes its check completes with status OK and leaves CAUSE alone, whatever its
payload; and an engine is finalized once: a second FINISH raises NOT_ACTIVE (60_exceptions.md R208). -/
def Obligations.PassingCommandAnswersOk : Prop :=
  (∀ (i : Instr) (s : State), passesCheck i s = true →
    ∃ t resp, exec i s = .next t ∧ t.tx = s.tx ++ 0x00 :: resp ∧ t.cause = s.cause) ∧
  (∀ s t : State, s.engState = .active → exec .finish s = .next t →
    exec .finish t = .next { t with cause := 0x03, engState := .fault, tx := t.tx ++ [0x03] })

/-- FAULT is terminal until reset: CMD_READY is 0; a step that gives a next state is the host's RST, or leaves every
register of the block, the fault cause among them, as it was with no offered byte taken (the host may take response
bytes); STATUS stays readable and shows FAULT (60_exceptions.md R205). -/
def Obligations.FaultIsTerminal : Prop :=
  ∀ s t : State, s.engState = .fault → step s = .next t →
    s.cmdReady = false ∧
    (RstStep s t ∨
      (t = { s with tx := t.tx, delivered := t.delivered, host := t.host } ∧
        offeredBytes t.host = offeredBytes s.host ∧ t.status.extractLsb' 0 2 = 2 ∧
        t.status.extractLsb' 8 8 = s.status.extractLsb' 8 8))

/-! ### State, transitions and write sets -/

/-- The write sets, which are the commands' frame: a command that passes its check writes only the registers listed for
it, and FINISH leaves the engine registers with no value; one that does not writes only ENG_STATE and CAUSE. Beside
them only the response channel changes (and, in FINISH, the model's counter of free values) (10_state.md R39). -/
def Obligations.WriteSets : Prop :=
  ∀ (i : Instr) (s : State), ∃ t, exec i s = .next t ∧
    (passesCheck i s = false → t = { s with engState := t.engState, cause := t.cause, tx := t.tx }) ∧
    (passesCheck i s = true →
      match i with
      | .loadkey _ _ => t = { s with k0 := t.k0, k1 := t.k1, keysValid := t.keysValid, tx := t.tx }
      | .init => t = { s with eng := t.eng, engState := t.engState, tx := t.tx }
      | .update _ => t = { s with eng := t.eng, tx := t.tx }
      | .updateU8 _ => t = { s with eng := t.eng, tx := t.tx }
      | .finish =>
        t = { s with eng := t.eng, engState := t.engState, fresh := t.fresh, tx := t.tx } ∧ t.engine? = none
      | .digest _ => t = { s with tx := t.tx }
      | .digestU8 _ => t = { s with tx := t.tx }
      | .illegal _ => False)

/-- ENG_STATE's transitions: reset gives IDLE; from IDLE and ACTIVE a command that fails its check gives FAULT, INIT
that passes it ACTIVE, FINISH that passes it IDLE, and no other changes it; over every step, only reset and a command,
which is never accepted in FAULT, change it; in FAULT a step that is not reset takes no frame byte (10_state.md R32). -/
def Obligations.EngStateTransitions : Prop :=
  (∀ s t : State, RstStep s t → t.engState = .idle) ∧
  (∀ (i : Instr) (s t : State), s.engState ≠ .fault → exec i s = .next t →
    (passesCheck i s = false → t.engState = .fault) ∧
    (passesCheck i s = true →
      t.engState =
        (match i with
        | .loadkey _ _ => s.engState
        | .init => .active
        | .update _ => s.engState
        | .updateU8 _ => s.engState
        | .finish => .idle
        | .digest _ => s.engState
        | .digestU8 _ => s.engState
        | .illegal _ => .fault))) ∧
  (∀ s t : State, step s = .next t →
    RstStep s t ∨ (∃ i s0, CommandStep s t i s0 ∧ s.engState ≠ .fault) ∨ t.engState = s.engState) ∧
  (∀ s t : State, step s = .next t → s.engState = .fault →
    RstStep s t ∨ (t.engState = .fault ∧ offeredBytes t.host = offeredBytes s.host))

/-- KEYS_VALID's writers, over every step: reset writes 0, LOADKEY writes 1, nothing else writes it
(10_state.md R22). -/
def Obligations.KeysValidWriters : Prop :=
  (∀ (level : Bool) (s : State), (applyRst level s).keysValid = false) ∧
  (∀ (k0 k1 : Word) (s t : State), exec (.loadkey k0 k1) s = .next t → t.keysValid = true) ∧
  (∀ s t : State, step s = .next t →
    RstStep s t ∨ (∃ k0 k1 s0, CommandStep s t (.loadkey k0 k1) s0) ∨ t.keysValid = s.keysValid)

/-- CAUSE: reset writes 0, a fault writes its code, and in every step "non-zero exactly when ENG_STATE = FAULT" is kept
(10_state.md R33). -/
def Obligations.CauseExactlyInFault : Prop :=
  State.reset.cause = 0 ∧ (∀ (level : Bool) (s : State), (applyRst level s).cause = 0) ∧
  (∀ s : State, (raise .illegalOpcode s).cause = 0x01 ∧ (raise .noKey s).cause = 0x02 ∧
    (raise .notActive s).cause = 0x03) ∧
  (∀ s t : State, (s.cause ≠ 0 ↔ s.engState = .fault) → step s = .next t → (t.cause ≠ 0 ↔ t.engState = .fault))

/-- STATUS's layout: STATE at 1:0 (never 3), KEYS_VALID at 2, BUSY at 3, zeros at 7:4, CAUSE at 15:8; BUSY reads 0
between two transactions; after reset STATUS reads 0 (10_state.md R34). -/
def Obligations.StatusLayout : Prop :=
  (∀ s : State,
    s.status.extractLsb' 0 2 = (match s.engState with | .idle => 0 | .active => 1 | .fault => 2) ∧
    s.status.getLsbD 2 = s.keysValid ∧
    s.status.getLsbD 3 = (decide (s.rx ≠ []) || decide (s.tx ≠ [])) ∧
    s.status.extractLsb' 4 4 = 0 ∧
    s.status.extractLsb' 8 8 = s.cause ∧
    (s.rx = [] → s.tx = [] → s.status.getLsbD 3 = false)) ∧
  State.reset.status = 0x0000

/-- What reset leaves, from any state, while RST = 1 and when it returns to 0: IDLE, CAUSE 0, KEYS_VALID 0, STATUS 0,
keys and engine registers with no value, no partial frame, no response byte; while RST = 1 CMD_READY and RSP_VALID are
0, and when it is back at 0 the block waits for the first byte of a frame (10_state.md R38, 70_reset_and_hazards.md
R230, R232). -/
def Obligations.ResetLeaves : Prop :=
  (∀ (s : State) (level : Bool) (acts : List HostAct), s.host = .rst level :: acts → level = true ∨ s.rst = true →
    ∃ t, step s = .next t ∧ t.engState = .idle ∧ t.cause = 0 ∧ t.keysValid = false ∧ t.status = 0x0000 ∧
      t.keys? = none ∧ t.engine? = none ∧ t.rx = [] ∧ t.tx = [] ∧ t.rst = level ∧ t.host = acts ∧
      t.cmdReady = !level ∧ t.rspValid = false) ∧
  (State.reset.engState = .idle ∧ State.reset.cause = 0 ∧ State.reset.keysValid = false ∧
    State.reset.status = 0x0000 ∧ State.reset.keys? = none ∧ State.reset.engine? = none ∧ State.reset.rx = [] ∧
    State.reset.tx = [] ∧ State.reset.cmdReady = true)

/-- The invariant holds after reset. -/
def Obligations.ResetMeetsInv : Prop := State.reset.Inv

/-- Every step keeps the invariant, from every state that meets it: ACTIVE implies KEYS_VALID, the TAIL invariant, NTAIL
= LENGTH mod 8, CAUSE non-zero exactly in FAULT and one of the codes, no partial frame beside a pending response or in
FAULT, and the reset values while RST = 1 (the spec's rules for the block; the form of the partial frame is the model's,
log entry 8). -/
def Obligations.StepKeepsInv : Prop := ∀ s t : State, s.Inv → step s = .next t → t.Inv

/-- No step reads a register that holds no value: two states that differ only in the engine registers outside ACTIVE, in
the keys while KEYS_VALID = 0 and in the model's counter give the same outcome as far as any port shows, and again
differ only so; STATUS and both channels agree. The named reset values of log entries 1 and 2 can therefore show in no
run (10_state.md R29, R30, R36). -/
def Obligations.NoValueIsNeverRead : Prop :=
  ∀ s t : State, SameToHost s t →
    SameOutcome (step s) (step t) ∧ s.status = t.status ∧ s.cmdReady = t.cmdReady ∧ s.rspValid = t.rspValid ∧
      s.rspData = t.rspData

/-! ### The channels -/

/-- A step runs the decoded command: when the block can take a byte and the partial frame with the offered bytes begins
with one whole frame of a command i, the step is exec of i, on the state whose receiver is empty and whose host still
offers the bytes after the frame (the host's acts and the step's extent are the model's, log entries 5 and 8). -/
def Obligations.StepRunsDecodedFrame : Prop :=
  ∀ (s : State) (bytes left : List Byte) (acts : List HostAct) (i : Instr), s.host = .send bytes :: acts → bytes ≠ [] →
    s.rst = false → s.engState ≠ .fault → s.tx = [] → decode (s.rx ++ bytes) = .frame i left →
    step s = exec i { s with rx := [], host := if left = [] then acts else .send left :: acts }

/-- An incomplete frame is received and kept, and BUSY shows it: the block waits for the rest (30_encoding.md R84,
70_reset_and_hazards.md R237; the name of the stop is the model's, log entry 6). -/
def Obligations.IncompleteFrameIsKept : Prop :=
  ∀ (s : State) (bytes : List Byte) (acts : List HostAct), s.host = .send bytes :: acts → bytes ≠ [] →
    s.cmdReady = true → decode (s.rx ++ bytes) = .needMore →
    ∃ t, step s = .next t ∧ t = { s with rx := s.rx ++ bytes, host := acts } ∧ t.status.getLsbD 3 = true ∧
      (acts = [] → step t = .fault .frameIncomplete)

/-- Where the host cuts a frame does not matter: sending a beginning of a frame and then more bytes is sending both at
once (30_encoding.md R83, R84; the step's extent is the model's, log entry 8). -/
def Obligations.FramePiecesJoin : Prop :=
  ∀ (s t : State) (a b : List Byte) (acts : List HostAct), s.host = .send a :: .send b :: acts → a ≠ [] → b ≠ [] →
    s.cmdReady = true → decode (s.rx ++ a) = .needMore → step s = .next t →
    step t = step { s with host := .send (a ++ b) :: acts }

/-- For a legal opcode the block receives the whole frame before it makes the command's state check: a proper beginning
of the frame, whatever the state, changes no register and sends nothing; the whole frame, payload included, is consumed
and the command runs, whether its check passes or fails (30_encoding.md R83). -/
def Obligations.WholeFrameBeforeCheck : Prop :=
  ∀ (s : State) (i : Instr) (acts : List HostAct), i.wellFormed = true → (∀ op, i ≠ .illegal op) →
    s.cmdReady = true → s.rx = [] →
    (∀ k, 0 < k → k < (encode i).length → s.host = .send ((encode i).take k) :: acts →
      step s = .next { s with rx := (encode i).take k, host := acts }) ∧
    (s.host = .send (encode i) :: acts →
      ∃ t, step s = .next t ∧ exec i { s with host := acts } = .next t ∧ t.rx = [] ∧ t.host = acts)

/-- A step takes command bytes only when RST is 0, ENG_STATE is not FAULT and the host has taken the whole previous
response (30_encoding.md R82); otherwise the offered bytes stay offered. -/
def Obligations.BytesTakenOnlyWhenReady : Prop :=
  ∀ s t : State, step s = .next t → offeredBytes t.host ≠ offeredBytes s.host →
    s.rst = false ∧ s.engState ≠ .fault ∧ s.tx = []

/-- No command is refused, and a step stops only where the spec has no step: no RST is to come, and the block is held in
reset; or is in FAULT; or the host leaves its response untaken; or, able to take a byte, it is offered none, within a
frame or between two (93_implementation_defined.md I8, I11, I12; the names are the model's, log entry 6). -/
def Obligations.StopsOnlyWhenStuck : Prop :=
  (∀ (s : State) (r : Refusal), step s ≠ .refused r) ∧
  (∀ (s : State) (f : Fault), step s = .fault f → nextRst s.host = none ∧
    (match f with
    | .heldInReset => s.rst = true
    | .halted => s.rst = false ∧ s.engState = .fault
    | .responseUntaken => s.rst = false ∧ s.engState ≠ .fault ∧ s.tx ≠ [] ∧ s.host.head? ≠ some .take
    | .frameIncomplete => s.cmdReady = true ∧ s.rx ≠ [] ∧ s.cmdData = none
    | .awaitingFrame => s.cmdReady = true ∧ s.rx = [] ∧ s.cmdData = none))

/-- Response bytes reach the host once each and in the order they were sent. No step takes back a delivered byte. The
host's RST discards the pending ones. A command, which finds none pending, adds exactly its own response, and delivers
nothing. A take moves exactly the oldest pending byte to the host, and nothing else of the block. Every other step
leaves both as they were (20_memory.md R59, R61; 30_encoding.md R71; the record of what was delivered is the model's,
log entry 12). -/
def Obligations.ResponsesInOrder : Prop :=
  (∀ s t : State, step s = .next t → s.delivered <+: t.delivered) ∧
  (∀ s t : State, RstStep s t → t.tx = [] ∧ t.delivered = s.delivered) ∧
  (∀ (s t : State) (i : Instr) (s0 : State), CommandStep s t i s0 →
    s.tx = [] ∧ t.tx = commandResponse i s ∧ t.tx ≠ [] ∧ t.delivered = s.delivered) ∧
  (∀ (s : State) (b : Byte) (rest : List Byte) (acts : List HostAct), s.host = .take :: acts → s.rst = false →
    s.tx = b :: rest → step s = .next { s with tx := rest, delivered := s.delivered ++ [b], host := acts }) ∧
  (∀ s t : State, step s = .next t → ¬ RstStep s t → (∀ i s0, ¬ CommandStep s t i s0) →
    (s.host.head? = some .take ∧ s.rst = false ∧ s.tx ≠ []) ∨ (t.tx = s.tx ∧ t.delivered = s.delivered))

/-- The responses: 1 byte for LOADKEY, INIT, UPDATE and UPDATE_U8, 9 for FINISH, DIGEST and DIGEST_U8, their first byte
00; the one fault code for a command whose check fails, which an illegal opcode's always does (30_encoding.md R81). -/
def Obligations.ResponseLengths : Prop :=
  ∀ (i : Instr) (s : State), ∃ t resp, exec i s = .next t ∧ t.tx = s.tx ++ resp ∧
    (passesCheck i s = true → resp.head? = some 0x00 ∧
      resp.length =
        (match i with
        | .loadkey _ _ => 1
        | .init => 1
        | .update _ => 1
        | .updateU8 _ => 1
        | .finish => 9
        | .digest _ => 9
        | .digestU8 _ => 9
        | .illegal _ => 0)) ∧
    (passesCheck i s = false → ∃ c, failCause i = some c ∧ resp = [c.code]) ∧
    (∀ op, i = .illegal op → resp = [0x01])

/-- The digest's byte order: response byte i+1 is bits 8i+7 to 8i of the digest, for i in 0..7, and packing the eight
bytes little-endian gives the digest back (20_memory.md R55). -/
def Obligations.DigestByteOrder : Prop :=
  ∀ d : Word, (digestResponse d).length = 9 ∧
    (∀ i : Nat, i < 8 → (digestResponse d)[i + 1]? = some (d.extractLsb' (8 * i) 8)) ∧
    le64 ((digestResponse d).drop 1) = d

/-- A whole run of transactions: from any state in which the block waits for a frame, the host sends a LOADKEY frame,
takes its response, sends a DIGEST frame and takes its nine bytes; what it takes is 00, then 00 and the digest, and
STATUS ends with BUSY 0, KEYS_VALID 1, CAUSE and STATE as they were (70_reset_and_hazards.md R233, R241; the number of
steps is the model's, log entries 7 and 8). -/
def Obligations.OneShotTransactions : Prop :=
  ∀ (s : State) (k0 k1 : Word) (data : List Byte) (acts : List HostAct),
    (Instr.digest data).wellFormed = true → s.cmdReady = true → s.rx = [] →
    s.host = [.send (encode (.loadkey k0 k1)), .take, .send (encode (.digest data))] ++ List.replicate 9 .take ++ acts →
    ∃ t, core.run 12 s = .next t ∧ t.delivered = s.delivered ++ 0x00 :: 0x00 :: bytesLE 8 (sipHash24 k0 k1 data) ∧
      t.host = acts ∧ t.keysValid = true ∧ t.engState = s.engState ∧ t.eng = s.eng ∧ t.cause = s.cause ∧
      t.status.getLsbD 3 = false

/-! ### Idempotency, pseudo-instructions, assembler -/

/-- LOADKEY with the same keys twice, or INIT twice, leaves the same registers as once; a second FINISH faults; DIGEST
and DIGEST_U8 leave every register and respond the same again (20_memory.md R59). -/
def Obligations.RepeatedCommands : Prop :=
  (∀ (s t u : State) (k0 k1 : Word), exec (.loadkey k0 k1) s = .next t → exec (.loadkey k0 k1) t = .next u →
    u = { t with tx := u.tx }) ∧
  (∀ s t u : State, s.keysValid = true → exec .init s = .next t → exec .init t = .next u → u = { t with tx := u.tx }) ∧
  (∀ s t u : State, s.engState = .active → exec .finish s = .next t → exec .finish t = .next u →
    u.engState = .fault ∧ u.cause = 0x03) ∧
  (∀ (s t u : State) (i : Instr), s.keysValid = true → (∃ data, i = .digest data) ∨ (∃ b, i = .digestU8 b) →
    exec i s = .next t → exec i t = .next u →
    t = { s with tx := t.tx } ∧ ∃ resp, t.tx = s.tx ++ resp ∧ u.tx = t.tx ++ resp)

/-- UPDATE_LONG: ceiling(L / (2^32 - 1)) UPDATE commands, or one empty one for L = 0; their payloads joined in order are
the bytes, all but the last have 2^32 - 1 bytes, and each command is well-formed. They leave the engine state that one
absorption of all bytes leaves, and INIT, they and FINISH return the digest of all bytes. DEFAULTKEY is LOADKEY 0, 0
(30_encoding.md R88). -/
def Obligations.UpdateLongExpansion : Prop :=
  (∀ bs : List Byte, ∃ payloads : List (List Byte),
    updateLong bs = payloads.map Instr.update ∧
    payloads.length = (if bs = [] then 1 else (bs.length + (2 ^ 32 - 2)) / (2 ^ 32 - 1)) ∧
    payloads.flatten = bs ∧
    (∀ p ∈ payloads.dropLast, p.length = 2 ^ 32 - 1) ∧
    (∀ i ∈ updateLong bs, i.wellFormed = true)) ∧
  (∀ (bs : List Byte) (s : State), s.engState = .active →
    ∃ t, runCommands (updateLong bs) s = .next t ∧ t.engState = .active ∧ t.eng = absorb s.eng bs) ∧
  (∀ (bs : List Byte) (s : State), s.keysValid = true →
    ∃ t, runCommands (.init :: updateLong bs ++ [.finish]) s = .next t ∧ t.engState = .idle ∧
      t.tx = s.tx ++ List.replicate (1 + (updateLong bs).length) 0x00
        ++ 0x00 :: bytesLE 8 (sipHash24 s.k0 s.k1 bs)) ∧
  defaultKey = [.loadkey 0 0]

/-- The assembler gives each line of assembly its command, and rejects a key not below 2^64, a byte above 0xff and an
UPDATE or DIGEST payload of more than 2^32 - 1 bytes, with no operand cut short; what it accepts is well-formed. The
bytes of a program text are the frames of its lines' commands, in order, and decode back to them one by one; one
rejected line rejects the text (30_encoding.md R87, R88). -/
def Obligations.AssemblerAcceptsWellFormed : Prop :=
  (∀ k0 k1 : Nat, assemble (.loadkey k0 k1) =
    if k0 < 2 ^ 64 ∧ k1 < 2 ^ 64 then some [.loadkey (BitVec.ofNat 64 k0) (BitVec.ofNat 64 k1)] else none) ∧
  (assemble .init = some [.init] ∧ assemble .finish = some [.finish] ∧ assemble .defaultKey = some [.loadkey 0 0]) ∧
  (∀ b : Nat,
    assemble (.updateU8 b) = (if b ≤ 0xff then some [.updateU8 (BitVec.ofNat 8 b)] else none) ∧
    assemble (.digestU8 b) = (if b ≤ 0xff then some [.digestU8 (BitVec.ofNat 8 b)] else none)) ∧
  (∀ data : List Nat, (∀ b ∈ data, b ≤ 0xff) →
    assemble (.updateLong data) = some (updateLong (data.map (BitVec.ofNat 8))) ∧
    (data.length ≤ 2 ^ 32 - 1 →
      assemble (.update data) = some [.update (data.map (BitVec.ofNat 8))] ∧
      assemble (.digest data) = some [.digest (data.map (BitVec.ofNat 8))]) ∧
    (2 ^ 32 - 1 < data.length → assemble (.update data) = none ∧ assemble (.digest data) = none)) ∧
  (∀ data : List Nat, (∃ b ∈ data, 0xff < b) →
    assemble (.update data) = none ∧ assemble (.digest data) = none ∧ assemble (.updateLong data) = none) ∧
  (∀ (l : AsmLine) (is : List Instr), assemble l = some is → ∀ i ∈ is, i.wellFormed = true) ∧
  (∀ (lines : List String) (iss : List (List Instr)), lines.map assembleLine = iss.map some →
    ∃ bytes, assembleProgram lines = some bytes ∧ bytes = iss.flatten.flatMap encode ∧
      ∀ (pre : List Instr) (i : Instr) (post : List Instr), iss.flatten = pre ++ i :: post →
        decode (bytes.drop (pre.flatMap encode).length) = .frame i (post.flatMap encode)) ∧
  (∀ (lines : List String) (line : String), line ∈ lines → assembleLine line = none → assembleProgram lines = none)

/-- The assembler reads every command from its text: keys as sixteen and bytes as two hexadecimal digits, payloads
bracketed; the two pseudo-instructions too. A semicolon and what follows it change nothing. Any other mnemonic, a key
literal not below 2^64 and a byte literal above 0xff reject the line; and examples (30_encoding.md R87, R88; the text's
spacing and the decimal literals are the model's, log entry 16). -/
def Obligations.AssemblerReadsText : Prop :=
  (∀ i : Instr, i.wellFormed = true → (∀ op, i ≠ .illegal op) →
    ∃ text, lineText i = some text ∧ assembleLine (String.ofList text) = some [i]) ∧
  (∀ bs : List Byte,
    assembleLine (String.ofList ("UPDATE_LONG [".toList ++ payloadText bs)) = some (updateLong bs)) ∧
  assembleLine "DEFAULTKEY" = some defaultKey ∧
  (∀ text comment : List Char, ';' ∉ text →
    assembleLine (String.ofList (text ++ ';' :: comment)) = assembleLine (String.ofList text)) ∧
  (∀ (line : String) (m : List Char) (ts : List Token), tokens [] line.toList = .word m :: ts →
    String.ofList m ∉ mnemonics → assembleLine line = none) ∧
  (∀ (line : String) (a b : List Char) (x y : Nat),
    tokens [] line.toList = [.word "LOADKEY".toList, .word a, .comma, .word b] → literal a = some x →
    literal b = some y → 2 ^ 64 ≤ x ∨ 2 ^ 64 ≤ y → assembleLine line = none) ∧
  (∀ (line : String) (m a : List Char) (x : Nat), tokens [] line.toList = [.word m, .word a] →
    m = "UPDATE_U8".toList ∨ m = "DIGEST_U8".toList → literal a = some x → 0xff < x → assembleLine line = none) ∧
  (assembleLine "LOADKEY 7, 39" = some [.loadkey 7 39] ∧ assembleLine "LOADKEY 18446744073709551616, 0" = none ∧
    assembleLine "UPDATE_U8 0x100" = none ∧ assembleLine "UPDATE [100]" = none ∧ assembleLine "init" = none)

/-! ### What the model chooses beside the spec -/

/-- The model's choice, not the spec's (log entries 14 and 15): `exec` in FAULT, which no step runs, follows each
command's pseudocode as it stands, and of `illegal` it raises ILLEGAL_OPCODE whatever the byte. -/
def Obligations.ExecInFaultFollowsPseudocode : Prop :=
  (∀ s : State, s.engState = .fault →
    (∀ k0 k1 : Word,
      exec (.loadkey k0 k1) s = .next { s with k0 := k0, k1 := k1, keysValid := true, tx := s.tx ++ [0x00] }) ∧
    (s.keysValid = true →
      exec .init s = .next { s with eng := keyInit s.k0 s.k1, engState := .active, tx := s.tx ++ [0x00] } ∧
      (∀ data, exec (.digest data) s =
        .next { s with tx := s.tx ++ 0x00 :: bytesLE 8 (sipHash24 s.k0 s.k1 data) }) ∧
      (∀ b, exec (.digestU8 b) s = .next { s with tx := s.tx ++ 0x00 :: bytesLE 8 (sipHash24 s.k0 s.k1 [b]) })) ∧
    (s.keysValid = false → ∀ i, failCause i = some .noKey →
      exec i s = .next { s with cause := 0x02, tx := s.tx ++ [0x02] }) ∧
    (∀ i, failCause i = some .notActive → exec i s = .next { s with cause := 0x03, tx := s.tx ++ [0x03] })) ∧
  (∀ (s : State) (op : Byte),
    exec (.illegal op) s = .next { s with cause := 0x01, engState := .fault, tx := s.tx ++ [0x01] })
end

