-- ==== Sys2Proof/Laws/Assembler.lean ====
section
/-! SUPPORT. What the assembler does with each mnemonic, with the characters of a word, and with byte literals. -/

namespace Sys2Proof.Machine

theorem parseMnemonic_loadkey (ts : List Token) :
    parseMnemonic "LOADKEY".toList ts = (keyOperands ts).map fun k => .loadkey k.1 k.2 := by
  unfold parseMnemonic
  rw [if_pos rfl]

theorem parseMnemonic_update (ts : List Token) :
    parseMnemonic "UPDATE".toList ts = (payloadOperand ts).map .update := by
  unfold parseMnemonic
  rw [if_neg (by decide), if_neg (by decide), if_pos rfl]

theorem parseMnemonic_updateU8 (ts : List Token) :
    parseMnemonic "UPDATE_U8".toList ts = (literalOperand ts).map .updateU8 := by
  unfold parseMnemonic
  rw [if_neg (by decide), if_neg (by decide), if_neg (by decide), if_pos rfl]

theorem parseMnemonic_digest (ts : List Token) :
    parseMnemonic "DIGEST".toList ts = (payloadOperand ts).map .digest := by
  unfold parseMnemonic
  rw [if_neg (by decide), if_neg (by decide), if_neg (by decide), if_neg (by decide), if_neg (by decide), if_pos rfl]

theorem parseMnemonic_digestU8 (ts : List Token) :
    parseMnemonic "DIGEST_U8".toList ts = (literalOperand ts).map .digestU8 := by
  unfold parseMnemonic
  rw [if_neg (by decide), if_neg (by decide), if_neg (by decide), if_neg (by decide), if_neg (by decide),
    if_neg (by decide), if_pos rfl]

theorem parseMnemonic_updateLong (ts : List Token) :
    parseMnemonic "UPDATE_LONG".toList ts = (payloadOperand ts).map .updateLong := by
  unfold parseMnemonic
  rw [if_neg (by decide), if_neg (by decide), if_neg (by decide), if_neg (by decide), if_neg (by decide),
    if_neg (by decide), if_neg (by decide), if_neg (by decide), if_pos rfl]

/-- A mnemonic that is none of the list is rejected (30_encoding.md R87). -/
theorem parseMnemonic_other {m : List Char} (ts : List Token) (h : String.ofList m ∉ mnemonics) :
    parseMnemonic m ts = none := by
  have hne : ∀ n ∈ mnemonics, m ≠ n.toList := by
    rintro n hn rfl
    rw [String.ofList_toList] at h
    exact h hn
  simp only [mnemonics, List.mem_cons, List.not_mem_nil, or_false, forall_eq_or_imp, forall_eq] at hne
  simp only [parseMnemonic, hne, if_false]

/-- Characters that stand in a word: no separator, no bracket, no comma, no semicolon. -/
def WordChar (c : Char) : Prop := c ≠ ';' ∧ c ≠ ' ' ∧ c ≠ '\t' ∧ c ≠ ',' ∧ c ≠ '[' ∧ c ≠ ']'

/-- The characters of a word are gathered into it. -/
theorem tokens_word {w : List Char} (h : ∀ c ∈ w, WordChar c) (acc cs : List Char) :
    tokens acc (w ++ cs) = tokens (w.reverse ++ acc) cs := by
  induction w generalizing acc with
  | nil => rfl
  | cons c w ih =>
    obtain ⟨h1, h2, h3, h4, h5, h6⟩ := h c (by simp)
    rw [List.cons_append, tokens, if_neg h1, if_neg (by simp [h2, h3]), if_neg h4, if_neg h5, if_neg h6,
      ih fun d hd => h d (by simp [hd])]
    simp

theorem wordChar_hexChar : ∀ d < 16, WordChar (hexChar d) := by
  unfold WordChar
  decide

theorem digitValue_hexChar : ∀ d < 16, digitValue (hexChar d) = some d := by decide

/-- Byte literals in range are taken as they are, the whole list of them. -/
theorem mapM_byteLiteral {data : List Nat} (h : ∀ b ∈ data, b ≤ 0xff) :
    data.mapM byteLiteral = some (data.map (BitVec.ofNat 8)) := by
  induction data with
  | nil => rfl
  | cons b bs ih =>
    rw [List.mapM_cons, ih fun x hx => h x (by simp [hx]), byteLiteral, if_pos (h b (by simp))]
    rfl

/-- One byte literal out of range rejects the list. -/
theorem mapM_byteLiteral_none {data : List Nat} (h : ∃ b ∈ data, 0xff < b) : data.mapM byteLiteral = none := by
  obtain ⟨x, hx, hl⟩ := h
  induction data with
  | nil => cases hx
  | cons b bs ih =>
    rw [List.mapM_cons]
    rcases List.mem_cons.1 hx with rfl | hx
    · rw [byteLiteral, if_neg (by omega)]
      rfl
    · rw [ih hx]
      cases byteLiteral b <;> rfl

end Sys2Proof.Machine
end

