-- ==== Sys2Proof/Laws/Bytes.lean ====
section
/-! SUPPORT. The byte sequences and the little-endian packing. -/

namespace Sys2Proof.Machine

@[simp] theorem length_bytesLE (n : Nat) {w : Nat} (v : BitVec w) : (bytesLE n v).length = n := by
  simp [bytesLE]

theorem getElem_bytesLE {n w i : Nat} (v : BitVec w) (h : i < (bytesLE n v).length) :
    (bytesLE n v)[i] = v.extractLsb' (8 * i) 8 := by
  simp [bytesLE]

@[simp] theorem packLE_nil (w : Nat) : packLE w [] = 0#w := rfl

@[simp] theorem packLE_cons (w : Nat) (b : Byte) (bs : List Byte) :
    packLE w (b :: bs) = b.setWidth w ||| (packLE w bs <<< 8) := rfl

/-- Bit j of the packing is bit j mod 8 of byte j / 8: the shift-and-OR definition said bit by bit. -/
theorem getLsbD_packLE (w : Nat) (bs : List Byte) (j : Nat) :
    (packLE w bs).getLsbD j = (decide (j < w) && (bs.getD (j / 8) 0).getLsbD (j % 8)) := by
  induction bs generalizing j with
  | nil => simp
  | cons b bs ih =>
    rw [packLE_cons, BitVec.getLsbD_or, BitVec.getLsbD_setWidth, BitVec.getLsbD_shiftLeft]
    by_cases h : j < 8
    · have h0 : j / 8 = 0 := by omega
      have h1 : j % 8 = j := by omega
      simp [h, h0, h1]
    · obtain ⟨k, rfl⟩ : ∃ k, j = k + 8 := ⟨j - 8, by omega⟩
      have hb : b.getLsbD (k + 8) = false := BitVec.getLsbD_of_ge _ _ (by omega)
      have h0 : (k + 8) / 8 = k / 8 + 1 := by omega
      rw [ih, h0, hb]
      by_cases hw : k + 8 < w
      · have : k < w := by omega
        simp [hw, this]
      · simp [hw]

/-- Bytes past the packed ones are zero (41_absorption.md R126's reason). -/
theorem getLsbD_packLE_of_le {w : Nat} {bs : List Byte} {j : Nat} (h : 8 * bs.length ≤ j) :
    (packLE w bs).getLsbD j = false := by
  have hd : bs.getD (j / 8) 0 = 0 := by
    rw [List.getD_eq_getElem?_getD, List.getElem?_eq_none (by omega)]
    rfl
  rw [getLsbD_packLE, hd]
  simp

/-- Packing appended sequences: the second enters above the first (41_absorption.md R121 step 2). -/
theorem packLE_append (w : Nat) (as bs : List Byte) :
    packLE w (as ++ bs) = packLE w as ||| (packLE w bs <<< (8 * as.length)) := by
  induction as with
  | nil => simp
  | cons a as ih =>
    rw [List.cons_append, packLE_cons, ih, packLE_cons, BitVec.shiftLeft_or_distrib, BitVec.or_assoc,
      ← BitVec.shiftLeft_add]
    congr 3

theorem slice_eq_drop_take (bs : List Byte) (a b : Nat) : slice bs a b = (bs.drop a).take (b - a) := by
  simp [slice, List.drop_take]

/-- A slice that lies inside the first of two appended sequences does not see the second. -/
theorem slice_append_left {bs cs : List Byte} {a b : Nat} (h : b ≤ bs.length) : slice (bs ++ cs) a b = slice bs a b := by
  simp [slice, List.take_append_of_le_length h]

theorem length_slice (bs : List Byte) (a b : Nat) : (slice bs a b).length = min b bs.length - a := by
  simp [slice]

end Sys2Proof.Machine
end

