-- ==== Sys2Proof/Laws/Decode.lean ====
section
/-! SUPPORT. What the decoder does at each opcode, said once. -/

namespace Sys2Proof

open Sys2Proof.Machine

theorem payloadFits_iff (data : List Byte) : payloadFits data = true ↔ data.length < 2 ^ 32 := by
  unfold payloadFits Config.maxPayload
  rw [decide_eq_true_iff]
  omega

@[simp] theorem decode_nil : decode [] = .needMore := rfl

theorem decode_loadkey (bs : List Byte) : decode (0x01#8 :: bs) = decodeFK .loadkey (0x01#8 :: bs) := rfl

theorem decode_init (bs : List Byte) : decode (0x02#8 :: bs) = .frame .init bs := rfl

theorem decode_update (bs : List Byte) : decode (0x03#8 :: bs) = decodeFL .update (0x03#8 :: bs) := rfl

theorem decode_updateU8 (bs : List Byte) : decode (0x04#8 :: bs) = decodeFB .updateU8 (0x04#8 :: bs) := rfl

theorem decode_finish (bs : List Byte) : decode (0x05#8 :: bs) = .frame .finish bs := rfl

theorem decode_digest (bs : List Byte) : decode (0x06#8 :: bs) = decodeFL .digest (0x06#8 :: bs) := rfl

theorem decode_digestU8 (bs : List Byte) : decode (0x07#8 :: bs) = decodeFB .digestU8 (0x07#8 :: bs) := rfl

/-- Every opcode byte is one of the seven of the map or an illegal one (30_encoding.md R76). -/
theorem opcode_cases (op : Byte) :
    op = 0x01#8 ∨ op = 0x02#8 ∨ op = 0x03#8 ∨ op = 0x04#8 ∨ op = 0x05#8 ∨ op = 0x06#8 ∨ op = 0x07#8 ∨
      illegalOpcode op = true := by
  revert op
  decide

theorem illegalOpcode_iff (op : Byte) : illegalOpcode op = true ↔ op = 0x00 ∨ 0x08 ≤ op.toNat := by
  revert op
  decide

theorem decode_illegal {op : Byte} (bs : List Byte) (h : illegalOpcode op = true) :
    decode (op :: bs) = .frame (.illegal op) bs := by
  have hne : op ≠ 0x01#8 ∧ op ≠ 0x02#8 ∧ op ≠ 0x03#8 ∧ op ≠ 0x04#8 ∧ op ≠ 0x05#8 ∧ op ≠ 0x06#8 ∧ op ≠ 0x07#8 := by
    revert op
    decide
  obtain ⟨h1, h2, h3, h4, h5, h6, h7⟩ := hne
  simp [decode, h1, h2, h3, h4, h5, h6, h7]

end Sys2Proof
end

