-- ==== Sys2Proof/Laws/State.lean ====
section
/-! SUPPORT. One lemma per field per update of State, each true by unfolding the update once; proofs cite these and
never unfold a record update. -/

namespace Sys2Proof.Machine

@[simp] theorem respond_k0 (bs : List Byte) (s : State) : (respond bs s).k0 = s.k0 := rfl
@[simp] theorem respond_k1 (bs : List Byte) (s : State) : (respond bs s).k1 = s.k1 := rfl
@[simp] theorem respond_keysValid (bs : List Byte) (s : State) : (respond bs s).keysValid = s.keysValid := rfl
@[simp] theorem respond_eng (bs : List Byte) (s : State) : (respond bs s).eng = s.eng := rfl
@[simp] theorem respond_engState (bs : List Byte) (s : State) : (respond bs s).engState = s.engState := rfl
@[simp] theorem respond_cause (bs : List Byte) (s : State) : (respond bs s).cause = s.cause := rfl
@[simp] theorem respond_rx (bs : List Byte) (s : State) : (respond bs s).rx = s.rx := rfl
@[simp] theorem respond_tx (bs : List Byte) (s : State) : (respond bs s).tx = s.tx ++ bs := rfl
@[simp] theorem respond_rst (bs : List Byte) (s : State) : (respond bs s).rst = s.rst := rfl
@[simp] theorem respond_host (bs : List Byte) (s : State) : (respond bs s).host = s.host := rfl
@[simp] theorem respond_delivered (bs : List Byte) (s : State) : (respond bs s).delivered = s.delivered := rfl
@[simp] theorem respond_fresh (bs : List Byte) (s : State) : (respond bs s).fresh = s.fresh := rfl

@[simp] theorem raise_k0 (c : FaultCause) (s : State) : (raise c s).k0 = s.k0 := rfl
@[simp] theorem raise_k1 (c : FaultCause) (s : State) : (raise c s).k1 = s.k1 := rfl
@[simp] theorem raise_keysValid (c : FaultCause) (s : State) : (raise c s).keysValid = s.keysValid := rfl
@[simp] theorem raise_eng (c : FaultCause) (s : State) : (raise c s).eng = s.eng := rfl
@[simp] theorem raise_engState (c : FaultCause) (s : State) : (raise c s).engState = .fault := rfl
@[simp] theorem raise_cause (c : FaultCause) (s : State) : (raise c s).cause = c.code := rfl
@[simp] theorem raise_rx (c : FaultCause) (s : State) : (raise c s).rx = s.rx := rfl
@[simp] theorem raise_tx (c : FaultCause) (s : State) : (raise c s).tx = s.tx ++ [c.code] := rfl
@[simp] theorem raise_rst (c : FaultCause) (s : State) : (raise c s).rst = s.rst := rfl
@[simp] theorem raise_host (c : FaultCause) (s : State) : (raise c s).host = s.host := rfl
@[simp] theorem raise_delivered (c : FaultCause) (s : State) : (raise c s).delivered = s.delivered := rfl
@[simp] theorem raise_fresh (c : FaultCause) (s : State) : (raise c s).fresh = s.fresh := rfl

@[simp] theorem applyRst_k0 (level : Bool) (s : State) : (applyRst level s).k0 = 0 := rfl
@[simp] theorem applyRst_k1 (level : Bool) (s : State) : (applyRst level s).k1 = 0 := rfl
@[simp] theorem applyRst_keysValid (level : Bool) (s : State) : (applyRst level s).keysValid = false := rfl
@[simp] theorem applyRst_eng (level : Bool) (s : State) : (applyRst level s).eng = Engine.atReset := rfl
@[simp] theorem applyRst_engState (level : Bool) (s : State) : (applyRst level s).engState = .idle := rfl
@[simp] theorem applyRst_cause (level : Bool) (s : State) : (applyRst level s).cause = 0 := rfl
@[simp] theorem applyRst_rx (level : Bool) (s : State) : (applyRst level s).rx = [] := rfl
@[simp] theorem applyRst_tx (level : Bool) (s : State) : (applyRst level s).tx = [] := rfl
@[simp] theorem applyRst_rst (level : Bool) (s : State) : (applyRst level s).rst = level := rfl
@[simp] theorem applyRst_host (level : Bool) (s : State) : (applyRst level s).host = s.host := rfl
@[simp] theorem applyRst_delivered (level : Bool) (s : State) : (applyRst level s).delivered = s.delivered := rfl
@[simp] theorem applyRst_fresh (level : Bool) (s : State) : (applyRst level s).fresh = s.fresh := rfl

@[simp] theorem consumeEngine_k0 (s : State) : (consumeEngine s).k0 = s.k0 := rfl
@[simp] theorem consumeEngine_k1 (s : State) : (consumeEngine s).k1 = s.k1 := rfl
@[simp] theorem consumeEngine_keysValid (s : State) : (consumeEngine s).keysValid = s.keysValid := rfl
@[simp] theorem consumeEngine_eng (s : State) : (consumeEngine s).eng = freeEngine s.fresh := rfl
@[simp] theorem consumeEngine_engState (s : State) : (consumeEngine s).engState = .idle := rfl
@[simp] theorem consumeEngine_cause (s : State) : (consumeEngine s).cause = s.cause := rfl
@[simp] theorem consumeEngine_rx (s : State) : (consumeEngine s).rx = s.rx := rfl
@[simp] theorem consumeEngine_tx (s : State) : (consumeEngine s).tx = s.tx := rfl
@[simp] theorem consumeEngine_rst (s : State) : (consumeEngine s).rst = s.rst := rfl
@[simp] theorem consumeEngine_host (s : State) : (consumeEngine s).host = s.host := rfl
@[simp] theorem consumeEngine_delivered (s : State) : (consumeEngine s).delivered = s.delivered := rfl
@[simp] theorem consumeEngine_fresh (s : State) : (consumeEngine s).fresh = s.fresh + 7 := rfl

@[simp] theorem deliver_k0 (acts : List HostAct) (s : State) : (deliver acts s).k0 = s.k0 := rfl
@[simp] theorem deliver_k1 (acts : List HostAct) (s : State) : (deliver acts s).k1 = s.k1 := rfl
@[simp] theorem deliver_keysValid (acts : List HostAct) (s : State) : (deliver acts s).keysValid = s.keysValid := rfl
@[simp] theorem deliver_eng (acts : List HostAct) (s : State) : (deliver acts s).eng = s.eng := rfl
@[simp] theorem deliver_engState (acts : List HostAct) (s : State) : (deliver acts s).engState = s.engState := rfl
@[simp] theorem deliver_cause (acts : List HostAct) (s : State) : (deliver acts s).cause = s.cause := rfl
@[simp] theorem deliver_rx (acts : List HostAct) (s : State) : (deliver acts s).rx = s.rx := rfl
@[simp] theorem deliver_tx (acts : List HostAct) (s : State) : (deliver acts s).tx = s.tx.tail := rfl
@[simp] theorem deliver_rst (acts : List HostAct) (s : State) : (deliver acts s).rst = s.rst := rfl
@[simp] theorem deliver_host (acts : List HostAct) (s : State) : (deliver acts s).host = acts := rfl
@[simp] theorem deliver_delivered (acts : List HostAct) (s : State) : (deliver acts s).delivered = s.delivered ++ s.tx.take 1 := rfl
@[simp] theorem deliver_fresh (acts : List HostAct) (s : State) : (deliver acts s).fresh = s.fresh := rfl

@[simp] theorem offerFrame_k0 (frame : List Byte) (s : State) : (offerFrame frame s).k0 = s.k0 := rfl
@[simp] theorem offerFrame_k1 (frame : List Byte) (s : State) : (offerFrame frame s).k1 = s.k1 := rfl
@[simp] theorem offerFrame_keysValid (frame : List Byte) (s : State) : (offerFrame frame s).keysValid = s.keysValid := rfl
@[simp] theorem offerFrame_eng (frame : List Byte) (s : State) : (offerFrame frame s).eng = s.eng := rfl
@[simp] theorem offerFrame_engState (frame : List Byte) (s : State) : (offerFrame frame s).engState = s.engState := rfl
@[simp] theorem offerFrame_cause (frame : List Byte) (s : State) : (offerFrame frame s).cause = s.cause := rfl
@[simp] theorem offerFrame_rx (frame : List Byte) (s : State) : (offerFrame frame s).rx = [] := rfl
@[simp] theorem offerFrame_tx (frame : List Byte) (s : State) : (offerFrame frame s).tx = [] := rfl
@[simp] theorem offerFrame_rst (frame : List Byte) (s : State) : (offerFrame frame s).rst = false := rfl
@[simp] theorem offerFrame_host (frame : List Byte) (s : State) : (offerFrame frame s).host = .send frame :: s.host := rfl
@[simp] theorem offerFrame_delivered (frame : List Byte) (s : State) : (offerFrame frame s).delivered = s.delivered := rfl
@[simp] theorem offerFrame_fresh (frame : List Byte) (s : State) : (offerFrame frame s).fresh = s.fresh := rfl

end Sys2Proof.Machine
end

