-- ==== Sys2Proof/Laws/Ops.lean ====
section
/-! SUPPORT. One lemma per shared operation, which says all it can do; proofs cite these and never unfold it. -/

namespace Sys2Proof.Machine

/-! ### Reading the registers that may hold no value -/

theorem keys?_of_valid {s : State} (h : s.keysValid = true) : s.keys? = some (s.k0, s.k1) := by
  simp [State.keys?, h]

theorem keys?_of_not_valid {s : State} (h : s.keysValid = false) : s.keys? = none := by
  simp [State.keys?, h]

theorem engine?_of_active {s : State} (h : s.engState = .active) : s.engine? = some s.eng := by
  simp [State.engine?, h]

theorem engine?_of_not_active {s : State} (h : s.engState ≠ .active) : s.engine? = none := by
  cases hs : s.engState <;> simp_all [State.engine?]

/-! ### The shared bodies of the commands -/

theorem oneShot_of_valid {s : State} (msg : List Byte) (h : s.keysValid = true) :
    oneShot msg s = .next (respond (digestResponse (sipHash24 s.k0 s.k1 msg)) s) := by
  simp [oneShot, keys?_of_valid h]

theorem oneShot_of_not_valid {s : State} (msg : List Byte) (h : s.keysValid = false) :
    oneShot msg s = .next (raise .noKey s) := by
  simp [oneShot, keys?_of_not_valid h]

theorem absorbCommand_of_active {s : State} (bs : List Byte) (h : s.engState = .active) :
    absorbCommand bs s = .next (respond [okByte] { s with eng := absorb s.eng bs }) := by
  simp [absorbCommand, engine?_of_active h]

theorem absorbCommand_of_not_active {s : State} (bs : List Byte) (h : s.engState ≠ .active) :
    absorbCommand bs s = .next (raise .notActive s) := by
  simp [absorbCommand, engine?_of_not_active h]

theorem execInit_of_valid {s : State} (h : s.keysValid = true) :
    execInit s = .next (respond [okByte] { s with eng := keyInit s.k0 s.k1, engState := .active }) := by
  simp [execInit, keys?_of_valid h]

theorem execInit_of_not_valid {s : State} (h : s.keysValid = false) : execInit s = .next (raise .noKey s) := by
  simp [execInit, keys?_of_not_valid h]

theorem execFinish_of_active {s : State} (h : s.engState = .active) :
    execFinish s = .next (respond (digestResponse (finalize s.eng)) (consumeEngine s)) := by
  simp [execFinish, engine?_of_active h]

theorem execFinish_of_not_active {s : State} (h : s.engState ≠ .active) :
    execFinish s = .next (raise .notActive s) := by
  simp [execFinish, engine?_of_not_active h]

theorem digestResponse_eq (d : Word) :
    digestResponse d = [0x00, d.extractLsb' 0 8, d.extractLsb' 8 8, d.extractLsb' 16 8, d.extractLsb' 24 8,
      d.extractLsb' 32 8, d.extractLsb' 40 8, d.extractLsb' 48 8, d.extractLsb' 56 8] := rfl

/-! ### Absorb -/

/-- More fuel than the loop needs changes nothing. -/
theorem absorbWords_fuel {f g : Nat} (v : Lanes) (bs : List Byte) (hf : bs.length ≤ f) (hg : bs.length ≤ g) :
    absorbWords f v bs = absorbWords g v bs := by
  induction f generalizing g v bs with
  | zero =>
    have hb : bs.length = 0 := by omega
    cases g <;> simp [absorbWords, Config.blockBytes, hb]
  | succ f ih =>
    cases g with
    | zero =>
      have hb : bs.length = 0 := by omega
      simp [absorbWords, Config.blockBytes, hb]
    | succ g =>
      simp only [absorbWords, Config.blockBytes]
      by_cases h8 : 8 ≤ bs.length
      · rw [if_pos h8, if_pos h8]
        exact ih _ _ (by simp; omega) (by simp; omega)
      · rw [if_neg h8, if_neg h8]

/-- Fewer than eight bytes: they become the tail (41_absorption.md R121 step 4). -/
theorem absorbFull_short (e : Engine) {bs : List Byte} (h : bs.length < 8) :
    absorbFull e bs = { e with tail := le64 bs, ntail := BitVec.ofNat 3 bs.length } := by
  have hr : absorbWords bs.length e.lanes bs = (e.lanes, bs) := by
    cases hb : bs.length with
    | zero => rfl
    | succ n =>
      have hn : ¬ 8 ≤ bs.length := by omega
      simp [absorbWords, Config.blockBytes, hn]
  simp [absorbFull, hr]

/-- A full word: it is compressed, and the loop goes on (41_absorption.md R121 step 3). -/
theorem absorbFull_block (e : Engine) {bs : List Byte} (h : 8 ≤ bs.length) :
    absorbFull e bs = absorbFull { e with lanes := compress e.lanes (le64 (bs.take 8)) } (bs.drop 8) := by
  have hr : absorbWords bs.length e.lanes bs =
      absorbWords (bs.drop 8).length (compress e.lanes (le64 (bs.take 8))) (bs.drop 8) := by
    obtain ⟨n, hn⟩ : ∃ n, bs.length = n + 1 := ⟨bs.length - 1, by omega⟩
    rw [hn]
    simp only [absorbWords, Config.blockBytes, h, if_true]
    exact absorbWords_fuel _ _ (by simp; omega) le_rfl
  simp [absorbFull, hr]

/-- The old TAIL and NTAIL do not enter steps 3 and 4. -/
theorem absorbFull_ignores (e : Engine) (t : Word) (n : BitVec 3) (bs : List Byte) :
    absorbFull { e with tail := t, ntail := n } bs = absorbFull e bs := rfl

/-- Absorb with nothing pending (41_absorption.md R123). -/
theorem absorb_of_empty_tail {e : Engine} (bs : List Byte) (h : e.ntail.toNat = 0) :
    absorb e bs = absorbFull { e with length := e.length + BitVec.ofNat 64 bs.length } bs := by
  simp [absorb, h]

/-- Absorb where the bytes do not complete the pending block (41_absorption.md R121 step 2, early return). -/
theorem absorb_of_short {e : Engine} {bs : List Byte} (h : 0 < e.ntail.toNat) (hs : e.ntail.toNat + bs.length < 8) :
    absorb e bs = { e with
      length := e.length + BitVec.ofNat 64 bs.length
      tail := e.tailWith bs
      ntail := BitVec.ofNat 3 (e.ntail.toNat + bs.length) } := by
  have hb : bs.length < 8 - e.ntail.toNat := by omega
  simp [absorb, h, Config.blockBytes, hb]

/-- Absorb where the bytes complete the pending block (41_absorption.md R121 step 2). -/
theorem absorb_of_completion {e : Engine} {bs : List Byte} (h : 0 < e.ntail.toNat)
    (hs : 8 ≤ e.ntail.toNat + bs.length) :
    absorb e bs = absorbFull
      { e with
        length := e.length + BitVec.ofNat 64 bs.length
        lanes := compress e.lanes (e.tailWith (bs.take (8 - e.ntail.toNat)))
        ntail := 0 }
      (bs.drop (8 - e.ntail.toNat)) := by
  have hb : ¬ bs.length < 8 - e.ntail.toNat := by omega
  simp [absorb, h, Config.blockBytes, hb]

end Sys2Proof.Machine
end

