-- ==== Sys2Proof/Laws/Exec.lean ====
section
/-! SUPPORT. What `exec` can do, said once, and STATUS field by field; proofs cite these and split no meaning again. -/

namespace Sys2Proof.Machine

/-- A command whose check fails takes its fault entry. -/
theorem exec_of_failing {i : Instr} {s : State} (h : passesCheck i s = false) :
    ∃ c, failCause i = some c ∧ exec i s = .next (raise c s) := by
  cases i <;> simp [passesCheck] at h
  · exact ⟨_, rfl, execInit_of_not_valid h⟩
  · exact ⟨_, rfl, absorbCommand_of_not_active _ h⟩
  · exact ⟨_, rfl, absorbCommand_of_not_active _ h⟩
  · exact ⟨_, rfl, execFinish_of_not_active h⟩
  · exact ⟨_, rfl, oneShot_of_not_valid _ h⟩
  · exact ⟨_, rfl, oneShot_of_not_valid _ h⟩
  · exact ⟨_, rfl, rfl⟩

/-- UPDATE and UPDATE_U8 in ACTIVE. -/
theorem exec_of_absorbed {i : Instr} {bs : List Byte} {s : State} (h : i.absorbed? = some bs)
    (ha : s.engState = .active) : exec i s = .next (respond [okByte] { s with eng := absorb s.eng bs }) := by
  cases i <;> simp [Instr.absorbed?] at h <;> subst h <;> exact absorbCommand_of_active _ ha

/-- Every command gives a next state, and one of these. -/
theorem exec_cases (i : Instr) (s : State) :
    ∃ t, exec i s = .next t ∧
      ((∃ c, passesCheck i s = false ∧ failCause i = some c ∧ t = raise c s) ∨
       (∃ k0 k1, i = .loadkey k0 k1 ∧ t = respond [okByte] { s with k0 := k0, k1 := k1, keysValid := true }) ∨
       (i = .init ∧ s.keysValid = true ∧
        t = respond [okByte] { s with eng := keyInit s.k0 s.k1, engState := .active }) ∨
       (∃ bs, i.absorbed? = some bs ∧ s.engState = .active ∧
        t = respond [okByte] { s with eng := absorb s.eng bs }) ∨
       (i = .finish ∧ s.engState = .active ∧
        t = respond (digestResponse (finalize s.eng)) (consumeEngine s)) ∨
       (∃ bs, (i = .digest bs ∨ ∃ b, i = .digestU8 b ∧ bs = [b]) ∧ s.keysValid = true ∧
        t = respond (digestResponse (sipHash24 s.k0 s.k1 bs)) s)) := by
  cases hp : passesCheck i s
  · obtain ⟨c, hc, he⟩ := exec_of_failing hp
    exact ⟨_, he, .inl ⟨c, rfl, hc, rfl⟩⟩
  · cases i <;> simp [passesCheck] at hp
    · exact ⟨_, rfl, .inr (.inl ⟨_, _, rfl, rfl⟩)⟩
    · exact ⟨_, execInit_of_valid hp, .inr (.inr (.inl ⟨rfl, hp, rfl⟩))⟩
    · exact ⟨_, absorbCommand_of_active _ hp, .inr (.inr (.inr (.inl ⟨_, rfl, hp, rfl⟩)))⟩
    · exact ⟨_, absorbCommand_of_active _ hp, .inr (.inr (.inr (.inl ⟨_, rfl, hp, rfl⟩)))⟩
    · exact ⟨_, execFinish_of_active hp, .inr (.inr (.inr (.inr (.inl ⟨rfl, hp, rfl⟩))))⟩
    · exact ⟨_, oneShot_of_valid _ hp, .inr (.inr (.inr (.inr (.inr ⟨_, .inl rfl, hp, rfl⟩))))⟩
    · exact ⟨_, oneShot_of_valid _ hp, .inr (.inr (.inr (.inr (.inr ⟨_, .inr ⟨_, rfl, rfl⟩, hp, rfl⟩))))⟩

theorem commandResponse_ne_nil (i : Instr) (s : State) : commandResponse i s ≠ [] := by
  unfold commandResponse
  cases i <;> simp [passesCheck, failCause] <;> split <;> simp

/-- A command puts its response behind the pending bytes and delivers nothing. -/
theorem exec_response {i : Instr} {s t : State} (h : exec i s = .next t) :
    t.tx = s.tx ++ commandResponse i s ∧ t.delivered = s.delivered := by
  obtain ⟨u, hu, hc⟩ := exec_cases i s
  rw [hu] at h
  cases h
  rcases hc with ⟨c, hp, hf, rfl⟩ | ⟨k0, k1, rfl, rfl⟩ | ⟨rfl, hk, rfl⟩ | ⟨bs, hb, ha, rfl⟩ | ⟨rfl, ha, rfl⟩ |
    ⟨bs, hi, hk, rfl⟩
  · simp [commandResponse, hp, hf]
  · exact ⟨rfl, rfl⟩
  · simp [commandResponse, passesCheck, hk, okByte]
  · cases i <;> simp [Instr.absorbed?] at hb <;> simp [commandResponse, passesCheck, ha, okByte]
  · simp [commandResponse, passesCheck, ha, digestResponse, okByte]
  · rcases hi with rfl | ⟨b, rfl, rfl⟩ <;> simp [commandResponse, passesCheck, hk, digestResponse, okByte]

/-- STATUS's CAUSE field is the register (10_state.md R34). -/
theorem status_cause (s : State) : s.status.extractLsb' 8 8 = s.cause := by
  unfold State.status
  generalize s.cause = c
  generalize s.engState.code = e
  cases s.busy <;> cases s.keysValid <;>
    (apply BitVec.eq_of_getLsbD_eq; intro j hj; interval_cases j <;> simp)

/-- STATUS's STATE field is ENG_STATE's code (10_state.md R34). -/
theorem status_state (s : State) : s.status.extractLsb' 0 2 = s.engState.code := by
  unfold State.status
  generalize s.cause = c
  generalize s.engState.code = e
  cases s.busy <;> cases s.keysValid <;>
    (apply BitVec.eq_of_getLsbD_eq; intro j hj; interval_cases j <;> simp)

/-- STATUS's KEYS_VALID bit is the register (10_state.md R34). -/
theorem status_keysValid (s : State) : s.status.getLsbD 2 = s.keysValid := by
  unfold State.status
  cases s.busy <;> cases s.keysValid <;> simp

/-- STATUS's BUSY bit (10_state.md R34). -/
theorem status_busy (s : State) : s.status.getLsbD 3 = s.busy := by
  unfold State.status
  cases s.busy <;> cases s.keysValid <;> simp

end Sys2Proof.Machine
end

