-- ==== Sys2Proof/Laws/PerInstr.lean ====
section
/-! SUPPORT. Facts about every command as syntax, one lemma per constructor. -/

namespace Sys2Proof.Laws.FrameShape

/-- The frame of a command begins with its opcode and has the length of its format (30_encoding.md R72, R76, R77). -/
def Statement (i : Instr) : Prop := (encode i).head? = some i.opcode ∧ (encode i).length = i.frameLength

theorem loadkey (k0 k1 : Word) : Statement (.loadkey k0 k1) := by
  simp [Statement, encode, Instr.operandBytes, Instr.frameLength]

theorem init : Statement .init := ⟨rfl, rfl⟩

theorem update (data : List Byte) : Statement (.update data) := by
  refine ⟨rfl, ?_⟩
  simp [encode, Instr.operandBytes, Instr.frameLength]
  omega

theorem updateU8 (b : Byte) : Statement (.updateU8 b) := ⟨rfl, rfl⟩

theorem finish : Statement .finish := ⟨rfl, rfl⟩

theorem digest (data : List Byte) : Statement (.digest data) := by
  refine ⟨rfl, ?_⟩
  simp [encode, Instr.operandBytes, Instr.frameLength]
  omega

theorem digestU8 (b : Byte) : Statement (.digestU8 b) := ⟨rfl, rfl⟩

theorem illegal (op : Byte) : Statement (.illegal op) := ⟨rfl, rfl⟩

end Sys2Proof.Laws.FrameShape
end

