-- ==== Sys2Proof/Laws/Step.lean ====
section
/-! SUPPORT. What a step can do, said once: the inversion lemma that proofs about `step` cite. -/

namespace Sys2Proof.Machine

/-- An RST that goes ahead drops no offered byte. -/
theorem offeredBytes_of_nextRst {acts rest : List HostAct} {level : Bool} (h : nextRst acts = some (level, rest)) :
    offeredBytes rest = offeredBytes acts := by
  induction acts generalizing rest level with
  | nil => simp [nextRst] at h
  | cons a acts ih =>
    cases a with
    | rst l =>
      simp only [nextRst, Option.some.injEq, Prod.mk.injEq] at h
      obtain ⟨-, rfl⟩ := h
      simp [offeredBytes]
    | send bytes =>
      simp only [nextRst, Option.map_eq_some_iff] at h
      obtain ⟨⟨l, r⟩, hr, he⟩ := h
      simp only [Prod.mk.injEq] at he
      obtain ⟨-, rfl⟩ := he
      have := ih hr
      simp_all [offeredBytes]
    | take =>
      simp only [nextRst, Option.map_eq_some_iff] at h
      obtain ⟨⟨l, r⟩, hr, he⟩ := h
      simp only [Prod.mk.injEq] at he
      obtain ⟨-, rfl⟩ := he
      have := ih hr
      simp_all [offeredBytes]

/-- The host's next drive of RST: a reset, or, where the level is 0 already, nothing. -/
theorem driveRst_cases {s : State} {level : Bool} {acts : List HostAct} (h : nextRst s.host = some (level, acts)) :
    RstStep s (driveRst level { s with host := acts }) ∨
      driveRst level { s with host := acts } = { s with host := acts } := by
  unfold driveRst
  split
  · rename_i hl
    exact .inl ⟨level, acts, h, by simpa using hl, rfl⟩
  · exact .inr rfl

theorem waitForHost_next {s t : State} (h : waitForHost s = .next t) :
    RstStep s t ∨ ∃ acts, offeredBytes acts = offeredBytes s.host ∧ t = { s with host := acts } := by
  unfold waitForHost at h
  split at h
  · cases h
  · rename_i level acts hr
    cases h
    exact (driveRst_cases hr).imp id fun he => ⟨acts, offeredBytes_of_nextRst hr, he⟩

/-- What a step that gives a next state can be: the host's RST; one response byte taken; an act without effect dropped
(an empty offer, or RST driven to 0 while it is 0); bytes of an incomplete frame kept; or a whole frame executed. -/
theorem step_cases {s t : State} (h : step s = .next t) :
    RstStep s t ∨
    (∃ acts, s.host = .take :: acts ∧ s.rspValid = true ∧ t = deliver acts s) ∨
    (∃ acts, offeredBytes acts = offeredBytes s.host ∧ t = { s with host := acts }) ∨
    (∃ bytes acts, s.host = .send bytes :: acts ∧ bytes ≠ [] ∧ s.cmdReady = true ∧
      decode (s.rx ++ bytes) = .needMore ∧ t = { s with rx := s.rx ++ bytes, host := acts }) ∨
    (∃ bytes acts i left, s.host = .send bytes :: acts ∧ bytes ≠ [] ∧ s.cmdReady = true ∧
      decode (s.rx ++ bytes) = .frame i left ∧
      exec i { s with rx := [], host := offerRest left acts } = .next t) := by
  have hwait (hw : waitForHost s = .next t) := waitForHost_next hw
  unfold step hostAct at h
  split at h
  · exact (hwait h).imp id fun hn => .inr (.inl hn)
  · rename_i level acts hh
    have hr : nextRst s.host = some (level, acts) := by simp [hh, nextRst]
    cases h
    exact (driveRst_cases hr).imp id fun he => .inr (.inl ⟨acts, offeredBytes_of_nextRst hr, he⟩)
  · rename_i acts hh
    split at h
    · rename_i hv
      cases h
      exact .inr (.inl ⟨acts, hh, hv, rfl⟩)
    · exact (hwait h).imp id fun hn => .inr (.inl hn)
  · rename_i bytes acts hh
    split at h
    · rename_i he
      cases h
      have hb : bytes = [] := by simpa using he
      exact .inr (.inr (.inl ⟨acts, by simp [hh, hb, offeredBytes], rfl⟩))
    · rename_i he
      have hb : bytes ≠ [] := by simpa using he
      split at h
      · rename_i hc
        unfold receive at h
        split at h
        · rename_i hd
          cases h
          exact .inr (.inr (.inr (.inl ⟨bytes, acts, hh, hb, hc, hd, rfl⟩)))
        · rename_i i left hd
          exact .inr (.inr (.inr (.inr ⟨bytes, acts, i, left, hh, hb, hc, hd, h⟩)))
      · exact (hwait h).imp id fun hn => .inr (.inl hn)

theorem cmdReady_iff (s : State) : s.cmdReady = true ↔ s.rst = false ∧ s.engState ≠ .fault ∧ s.tx = [] := by
  simp [State.cmdReady, and_assoc]

theorem rspValid_iff (s : State) : s.rspValid = true ↔ s.rst = false ∧ s.tx ≠ [] := by
  simp [State.rspValid]

end Sys2Proof.Machine
end

