-- ==== Sys2Proof/Tests/Slice0.lean ====
section
/-! SUPPORT. The model's own tests: expected values come from spec/95_test_vectors.md or by hand from the rules named.
The last part holds, for every statement that has hypotheses, a witness that meets them, named test_witness_<statement>. -/

namespace Sys2Proof.Tests

open Sys2Proof Sys2Proof.Machine

/-- M(n), the bytes 00 01 02 … of 95_test_vectors.md. -/
def seqBytes (n : Nat) : List Byte := (List.range n).map (BitVec.ofNat 8)

/-- The reference keys of 95_test_vectors.md. -/
def refK0 : Word := 0x0706050403020100
def refK1 : Word := 0x0f0e0d0c0b0a0908

/-- The lanes W of L2.3. -/
def lanesW : Lanes :=
  { v0 := 0x7469686173716475, v1 := 0x6b617f6d656e6665, v2 := 0x6b7f62616d677361, v3 := 0x7b6b696e727e6c7b }

/-- The lanes after the block 00..07, from L2.5. -/
def lanesBlock0 : Lanes :=
  { v0 := 0x4a017198de0a59e0, v1 := 0x0d52f6f62a4f59a4, v2 := 0x634cb3577b01fd3d, v3 := 0xa5224d6f55c7d9c8 }

/-- The reference keys loaded, no engine. -/
def keyed : State := { State.reset with k0 := refK0, k1 := refK1, keysValid := true }

/-- The reference keys loaded and INIT done, then `bs` absorbed. -/
def running (bs : List Byte) : State :=
  { keyed with eng := absorb { lanes := lanesW, tail := 0, ntail := 0, length := 0 } bs, engState := .active }

/-- In FAULT after a NOT_ACTIVE with keys loaded, the fault response taken. -/
def faulted : State := { keyed with engState := .fault, cause := 0x03 }

/-- `s` with these acts of the host to come. -/
def doing (acts : List HostAct) (s : State) : State := { s with host := acts }

/-- What a test looks at after an outcome. -/
def seen {α : Type} (f : State → α) : Host.Outcome State Fault Refusal → Option α
  | .next s => some (f s)
  | .fault _ => none
  | .refused _ => none

/-- The reason of a stop. -/
def stop? : Host.Outcome State Fault Refusal → Option Fault
  | .next _ => none
  | .fault r => some r
  | .refused _ => none

/-! ### WellFormed smoke: each check refuses an ill-formed term -/

theorem test_wf_refuses_legal_opcode_as_illegal : (Instr.illegal 0x01).wellFormed = false := by decide
theorem test_wf_refuses_opcode_07_as_illegal : (Instr.illegal 0x07).wellFormed = false := by decide
theorem test_wf_accepts_illegal_edges :
    (Instr.illegal 0x00).wellFormed = true ∧ (Instr.illegal 0x08).wellFormed = true := by decide

/-- A payload of 2^32 bytes has no encoding; one of 2^32 - 1 has (30_encoding.md R74). -/
theorem test_wf_payload_limit (b : Byte) :
    (Instr.update (List.replicate (2 ^ 32) b)).wellFormed = false ∧
    (Instr.digest (List.replicate (2 ^ 32) b)).wellFormed = false ∧
    (Instr.update (List.replicate (2 ^ 32 - 1) b)).wellFormed = true ∧
    (Instr.digest (List.replicate (2 ^ 32 - 1) b)).wellFormed = true := by
  simp only [Instr.wellFormed, payloadFits, Config.maxPayload, List.length_replicate]
  decide

/-! ### Decoding, from words written out byte by byte (30_encoding.md R72 to R76; L2.11) -/

theorem test_decode_loadkey :
    decode [0x01, 0x00, 0x01, 0x02, 0x03, 0x04, 0x05, 0x06, 0x07, 0x08, 0x09, 0x0a, 0x0b, 0x0c, 0x0d, 0x0e, 0x0f]
      = .frame (.loadkey 0x0706050403020100 0x0f0e0d0c0b0a0908) [] := by decide
theorem test_decode_init : decode [0x02] = .frame .init [] := by decide
theorem test_decode_update : decode [0x03, 0x03, 0x00, 0x00, 0x00, 0x01, 0x02, 0x03] = .frame (.update [1, 2, 3]) [] := by
  decide
theorem test_decode_update_empty : decode [0x03, 0x00, 0x00, 0x00, 0x00] = .frame (.update []) [] := by decide
theorem test_decode_updateU8 : decode [0x04, 0xff] = .frame (.updateU8 0xff) [] := by decide
theorem test_decode_finish : decode [0x05, 0x07] = .frame .finish [0x07] := by decide
theorem test_decode_digest : decode [0x06, 0x01, 0x00, 0x00, 0x00, 0x2a] = .frame (.digest [0x2a]) [] := by decide
theorem test_decode_digestU8 : decode [0x07, 0x00] = .frame (.digestU8 0x00) [] := by decide
theorem test_decode_illegal : decode [0x00] = .frame (.illegal 0x00) [] ∧ decode [0x08] = .frame (.illegal 0x08) [] ∧
    decode [0xff, 0x02] = .frame (.illegal 0xff) [0x02] := by decide
theorem test_decode_need_more : decode [] = .needMore ∧ decode [0x01, 0x00, 0x01, 0x02] = .needMore ∧
    decode [0x03, 0x05, 0x00] = .needMore ∧ decode [0x03, 0x05, 0x00, 0x00, 0x00, 0x01, 0x02] = .needMore ∧
    decode [0x04] = .needMore := by decide

/-- The length field's bytes are least significant first: 00 01 00 00 is 256. -/
theorem test_decode_length_order :
    decode ([0x03, 0x00, 0x01, 0x00, 0x00] ++ List.replicate 255 0) = .needMore ∧
    decode ([0x03, 0x00, 0x01, 0x00, 0x00] ++ List.replicate 256 0) = .frame (.update (List.replicate 256 0)) [] := by
  decide +kernel
theorem test_encode_length_order :
    (encode (.digest (List.replicate 258 0xaa))).take 6 = [0x06, 0x02, 0x01, 0x00, 0x00, 0xaa] := by decide +kernel

/-- Every row of the opcode table, by the number the table gives it, is its instruction. -/
theorem test_table_words :
    decodeTableWord 8 0x01 = some (.loadkey 0 0) ∧ decodeTableWord 8 0x02 = some .init ∧
    decodeTableWord 8 0x03 = some (.update []) ∧ decodeTableWord 8 0x04 = some (.updateU8 0) ∧
    decodeTableWord 8 0x05 = some .finish ∧ decodeTableWord 8 0x06 = some (.digest []) ∧
    decodeTableWord 8 0x07 = some (.digestU8 0) ∧ decodeTableWord 8 0x00 = some (.illegal 0) ∧
    decodeTableWord 8 0x0f = some (.illegal 0x0f) ∧ decodeTableWord 8 0x80 = some (.illegal 0x80) := by decide
theorem test_table_word_longer : decodeTableWord 16 0x2a04 = some (.updateU8 0x2a) ∧
    decodeTableWord 40 0x0000000103 = some (.update [0]) := by decide

/-- The step after `withFetchWord` runs exactly that frame: here UPDATE_U8 0x2a, first after reset. -/
theorem test_fetch_word_runs :
    seen (fun s => (s.cause, s.engState, s.tx, s.rx, s.host)) (step (State.reset.withFetchWord 16 0x2a04))
      = some (0x03, .fault, [0x03], [], []) := by decide

/-! ### The shared operations (L2.1 to L2.8) -/

theorem test_rotl64 : rotl64 0x0123456789abcdef 13 = 0x68acf13579bde024 ∧
    rotl64 0x0123456789abcdef 21 = 0xacf13579bde02468 ∧ rotl64 0x0000000000000001 63 = 0x8000000000000000 := by decide

theorem test_sipRound_unit : sipRound { v0 := 0, v1 := 0, v2 := 0, v3 := 1 } =
    { v0 := 0x0000000000010001, v1 := 0x0000000000000001, v2 := 0x0000000100000000, v3 := 0x0000002000210001 } := by
  decide +kernel
theorem test_sipRound_ones :
    sipRound { v0 := 0xffffffffffffffff, v1 := 0xffffffffffffffff, v2 := 0xffffffffffffffff, v3 := 0xffffffffffffffff }
      = { v0 := 0xffffffff00000000, v1 := 0xfffffffffffdffff, v2 := 0xffffffffffffffff, v3 := 0xffffffff00200000 } := by
  decide +kernel
theorem test_compress : compress lanesW refK0 = lanesBlock0 := by decide +kernel
theorem test_rounds4 : rounds lanesW 4 =
    { v0 := 0x3abf7346c94dcef0, v1 := 0xb93544252df3d2e3, v2 := 0x4757805fba560765, v3 := 0x558977760fce9e72 } := by
  decide +kernel
theorem test_keyInit_7_39 : (keyInit 7 39).lanes =
    { v0 := 0x736f6d6570736572, v1 := 0x646f72616e646f4a, v2 := 0x6c7967656e657266, v3 := 0x7465646279746554 } := by
  decide

/-- L2.6, straddling: 5 then 4. -/
theorem test_absorb_straddling :
    absorb (running (seqBytes 5)).eng [5, 6, 7, 8] = { lanes := lanesBlock0, tail := 0x08, ntail := 1, length := 9 } := by
  decide +kernel

/-- L2.6, the length wrap. -/
theorem test_absorb_length_wrap :
    absorb { lanes := lanesW, tail := 0x0006050403020100, ntail := 7, length := 0xffffffffffffffff } [0x11] =
      { lanes :=
          { v0 := 0x6e0fa79aaffaf5e0, v1 := 0x8b52f68b33cea4e4, v2 := 0x114dee17fd01fd40, v3 := 0x97509a99a42d3590 }
        tail := 0, ntail := 0, length := 0 } := by decide +kernel

/-- L2.8: the pad word of M(15), and the corners of the pad. -/
theorem test_padWord : (running (seqBytes 15)).eng.padWord = 0x0f0e0d0c0b0a0908 ∧
    (running (seqBytes 8)).eng.padWord = 0x0800000000000000 ∧
    (running (List.replicate 256 0)).eng.padWord = 0x0000000000000000 := by decide +kernel

/-- L1.2 and L2.8. -/
theorem test_sipHash24 : sipHash24 refK0 refK1 [] = 0x726fdb47dd0e0e31 ∧
    sipHash24 refK0 refK1 (seqBytes 7) = 0xab0200f58b01d137 ∧ sipHash24 refK0 refK1 (seqBytes 8) = 0x93f5f5799a932462 ∧
    sipHash24 refK0 refK1 (seqBytes 15) = 0xa129ca6149be45e5 ∧ sipHash24 refK0 refK1 (seqBytes 63) = 0x958a324ceb064572 ∧
    sipHash24 refK0 refK1 (List.replicate 256 0) = 0x7408248d2694d61c := by decide +kernel

/-! ### The commands: one step each (L2.4, L2.7, L2.9, L3) -/

theorem test_step_loadkey :
    seen (fun s => (s.k0, s.k1, s.engState, s.tx)) (step (doing [.send (0x01 :: 0x07 :: List.replicate 7 0 ++ 0x27 ::
      List.replicate 7 0)] (running [1])))
      = some (7, 39, .active, [0x00]) := by decide +kernel
theorem test_step_init :
    seen (fun s => (s.eng, s.engState, s.tx)) (step (doing [.send [0x02]] (running (seqBytes 3))))
      = some ({ lanes := lanesW, tail := 0, ntail := 0, length := 0 }, .active, [0x00]) := by decide +kernel
theorem test_step_init_without_keys :
    seen (fun s => (s.status, s.tx)) (step (doing [.send [0x02]] State.reset)) = some (0x020a, [0x02]) := by decide
theorem test_step_update :
    seen (fun s => (s.eng, s.tx)) (step (doing [.send [0x03, 3, 0, 0, 0, 5, 6, 7]] (running (seqBytes 5))))
      = some ({ lanes := lanesBlock0, tail := 0, ntail := 0, length := 8 }, [0x00]) := by decide +kernel
theorem test_step_update_without_keys :
    seen (fun s => (s.cause, s.keysValid, s.tx)) (step (doing [.send [0x03, 0, 0, 0, 0]] State.reset))
      = some (0x03, false, [0x03]) := by decide
theorem test_step_updateU8 :
    seen (fun s => (s.eng, s.tx)) (step (doing [.send [0x04, 0x03]] (running (seqBytes 3))))
      = some ({ lanes := lanesW, tail := 0x03020100, ntail := 4, length := 4 }, [0x00]) := by decide +kernel
theorem test_step_updateU8_completes :
    seen (fun s => s.eng) (step (doing [.send [0x04, 0x07]] (running (seqBytes 7))))
      = some { lanes := lanesBlock0, tail := 0, ntail := 0, length := 8 } := by decide +kernel
theorem test_step_finish :
    seen (fun s => (s.engState, s.tx, s.keysValid)) (step (doing [.send [0x05]] (running (seqBytes 15))))
      = some (.idle, [0x00, 0xe5, 0x45, 0xbe, 0x49, 0x61, 0xca, 0x29, 0xa1], true) := by decide +kernel
theorem test_step_finish_idle :
    seen (fun s => (s.engState, s.cause, s.tx)) (step (doing [.send [0x05]] keyed)) = some (.fault, 0x03, [0x03]) := by
  decide
theorem test_step_digest :
    seen (fun s => (s.eng, s.engState, s.tx)) (step (doing [.send [0x06, 0, 0, 0, 0]] (running (seqBytes 5))))
      = some ((running (seqBytes 5)).eng, .active, [0x00, 0x31, 0x0e, 0x0e, 0xdd, 0x47, 0xdb, 0x6f, 0x72]) := by
  decide +kernel
theorem test_step_digest_without_keys :
    seen (fun s => (s.cause, s.tx)) (step (doing [.send [0x06, 0, 0, 0, 0]] State.reset)) = some (0x02, [0x02]) := by
  decide
theorem test_step_digestU8 :
    seen (fun s => s.tx) (step (doing [.send [0x07, 0xff]] keyed))
      = some [0x00, 0x02, 0xb8, 0xdd, 0x27, 0x7b, 0x2f, 0xd1, 0xca] := by decide +kernel
theorem test_step_digestU8_without_keys :
    seen (fun s => (s.cause, s.tx)) (step (doing [.send [0x07, 0x2a]] State.reset)) = some (0x02, [0x02]) := by decide
theorem test_step_illegal :
    seen (fun s => (s.cause, s.engState, s.keysValid, s.tx, s.host)) (step (doing [.send [0x08, 0x02]] (running [])))
      = some (0x01, .fault, true, [0x01], [.send [0x02]]) := by decide

/-! ### STATUS, the channels and reset (10_state.md R34; 60_exceptions.md R205; L2.12) -/

theorem test_status : State.reset.status = 0x0000 ∧ keyed.status = 0x0004 ∧ (running []).status = 0x0005 ∧
    faulted.status = 0x0306 ∧ { keyed with rx := [0x04] }.status = 0x000c := by decide +kernel
theorem test_halted : stop? (step (doing [.send [0x02]] faulted)) = some .halted := by decide
theorem test_rst_goes_ahead_of_untakeable_bytes :
    seen id (step (doing [.send [0x02], .rst true] faulted))
      = some { State.reset with rst := true, host := [.send [0x02]] } := by decide
theorem test_rst_discards_partial_frame :
    seen id (step (doing [.rst true] { running [1] with rx := [0x03, 0x10, 0, 0, 0, 1, 2] }))
      = some { State.reset with rst := true } := by decide +kernel
theorem test_rst_release_needs_an_edge :
    seen id (step (doing [.rst false] keyed)) = some keyed ∧
    seen id (step { State.reset with rst := true, host := [.rst false] }) = some State.reset := by decide
theorem test_held_in_reset :
    stop? (step { State.reset with rst := true, host := [.send [0x02]] }) = some .heldInReset := by decide
theorem test_next_frame_waits_for_response :
    stop? (step { keyed with tx := [0x00], host := [.send [0x02]] }) = some .responseUntaken := by decide
theorem test_take_delivers :
    seen (fun s => (s.tx, s.delivered, s.rspData)) (step { keyed with tx := [0x00, 0x31], host := [.take] })
      = some ([0x31], [0x00], some 0x31) := by decide
theorem test_take_without_response_waits :
    stop? (step (doing [.take] keyed)) = some .awaitingFrame := by decide

/-! ### Assembler and pseudo-instructions (30_encoding.md R87, R88) -/

theorem test_assemble_lines :
    assembleLine "LOADKEY 7, 39 ; keys" = some [.loadkey 7 39] ∧
    assembleLine "UPDATE [00 2a ff]" = some [.update [0x00, 0x2a, 0xff]] ∧
    assembleLine "DEFAULTKEY" = some [.loadkey 0 0] ∧ assembleLine "UPDATE_LONG []" = some [.update []] ∧
    assembleLine "init" = none ∧ assembleLine "UPDATE_U8 0x100" = none ∧
    assembleLine "LOADKEY 18446744073709551616, 0" = none := by decide +kernel
theorem test_assemble_program :
    assembleProgram ["INIT", "UPDATE_U8 0x03", "FINISH"] = some [0x02, 0x04, 0x03, 0x05] := by decide +kernel

/-- UPDATE_LONG cuts after `size` bytes; the remainder comes last. -/
theorem test_pieces : pieces 3 7 (seqBytes 7) = [[0, 1, 2], [3, 4, 5], [6]] ∧
    pieces 3 6 (seqBytes 6) = [[0, 1, 2], [3, 4, 5]] := by decide

/-! ### Witnesses: the hypotheses of every statement are met, each clause at a boundary -/

theorem test_witness_DecodeOfEncode (b : Byte) :
    (Instr.update (List.replicate (2 ^ 32 - 1) b)).wellFormed = true ∧ (Instr.digest []).wellFormed = true ∧
    (Instr.loadkey 0xffffffffffffffff 0).wellFormed = true ∧ (Instr.illegal 0x08).wellFormed = true :=
  ⟨(test_wf_payload_limit b).2.2.1, by decide, by decide, by decide⟩

theorem test_witness_DecodeOnlyEncodedFrames :
    decode [0x03, 0x01, 0x00, 0x00, 0x00, 0x2a, 0x05] = .frame (.update [0x2a]) [0x05] := by decide

theorem test_witness_FrameBeginningNeedsMore :
    (Instr.update [0x2a]).wellFormed = true ∧ 5 < (encode (.update [0x2a])).length ∧ 0 < (encode .init).length := by decide

theorem test_witness_FrameLengthByFormat : decode [0xff, 0x01] = .frame (.illegal 0xff) [0x01] ∧
    decode [0x06, 0x01, 0x00, 0x00, 0x00, 0x2a] = .frame (.digest [0x2a]) [] := by decide

theorem test_witness_IllegalOpcodesDecode :
    ((0x00 : Byte) = 0x00 ∨ 0x08 ≤ (0x00 : Byte).toNat) ∧ ((0x08 : Byte) = 0x00 ∨ 0x08 ≤ (0x08 : Byte).toNat) ∧
    ((0xff : Byte) = 0x00 ∨ 0x08 ≤ (0xff : Byte).toNat) ∧ ¬ ((0x01 : Byte) = 0x00 ∨ 0x08 ≤ (0x01 : Byte).toNat) ∧
    ¬ ((0x07 : Byte) = 0x00 ∨ 0x08 ≤ (0x07 : Byte).toNat) := by decide

/-- The equations that name the intermediate lanes are met by the values themselves. -/
theorem test_witness_SipRoundLanes : ∃ a b c d : Word, a = lanesW.v0 + lanesW.v1 ∧ b = lanesW.v1.rotateLeft 13 ^^^ a ∧
    c = lanesW.v2 + lanesW.v3 ∧ d = lanesW.v3.rotateLeft 16 ^^^ c := ⟨_, _, _, _, rfl, rfl, rfl, rfl⟩

theorem test_witness_CompressRule : ∃ w : Lanes, w = sipRound (sipRound { lanesW with v3 := lanesW.v3 ^^^ refK0 }) :=
  ⟨_, rfl⟩

theorem test_witness_FinalizeSteps : ∃ v w : Lanes,
    v = compress lanesW ((BitVec.ofNat 64 ((7 : Word).toNat % 256) <<< 56) ||| 0x0006050403020100) ∧
    w = sipRound (sipRound (sipRound (sipRound { v with v2 := v.v2 ^^^ 0xff }))) := ⟨_, _, rfl, rfl⟩

theorem test_witness_RotateLeftBits : (1 ≤ 1 ∧ 1 ≤ 63 ∧ 0 < 64) ∧ (1 ≤ 63 ∧ 63 ≤ 63 ∧ 63 < 64) ∧
    rotl64 0x8000000000000001 1 = 0x3 := by decide

theorem test_witness_AbsorbKeepsTailClear :
    (running []).eng.TailClear ∧ (running (seqBytes 7)).eng.TailClear ∧ (running (seqBytes 7)).eng.ntail = 7 := by
  unfold Engine.TailClear
  decide +kernel

theorem test_witness_AbsorbEmpty : (running (seqBytes 1)).eng.TailClear := by
  unfold Engine.TailClear
  decide +kernel

theorem test_witness_AbsorbSteps :
    (0 < (running (seqBytes 1)).eng.ntail.toNat ∧
      (running (seqBytes 1)).eng.ntail.toNat + (seqBytes 6).length < 8) ∧
    (0 < (running (seqBytes 7)).eng.ntail.toNat ∧ (running (seqBytes 7)).eng.ntail.toNat + ([] : List Byte).length < 8 ∧
      [(9 : Byte)].length = 8 - (running (seqBytes 7)).eng.ntail.toNat) ∧
    ((running []).eng.ntail = 0 ∧ (seqBytes 8).length = 8 ∧ (seqBytes 7).length < 8) := by decide +kernel

theorem test_witness_AbsorbExactCompletion :
    (0 < (running (seqBytes 1)).eng.ntail.toNat ∧ (seqBytes 7).length = 8 - (running (seqBytes 1)).eng.ntail.toNat) ∧
    (0 < (running (seqBytes 7)).eng.ntail.toNat ∧ [(9 : Byte)].length = 8 - (running (seqBytes 7)).eng.ntail.toNat) := by
  decide +kernel

theorem test_witness_ChunkingInvariance :
    (running []).engState = .active ∧ [Instr.update [0, 1], .updateU8 2, .update []] ≠ [] ∧
    [Instr.update [0, 1], .updateU8 2, .update []].map Instr.absorbed? = [[0, 1], [2], []].map some := by decide +kernel

theorem test_witness_StreamCharacterisation : keyed.keysValid = true ∧
    [Instr.update (seqBytes 9), .loadkey 0 0, .digest [1], .digestU8 1, .updateU8 2].map Instr.streamPart?
      = [seqBytes 9, [], [], [], [2]].map some := by decide

theorem test_witness_LengthWraps :
    (263 : Word).toNat % 256 = (7 : Word).toNat % 256 ∧
    ({ running [] with eng :=
      { lanes := lanesW, tail := 0x0006050403020100, ntail := 7, length := 0xffffffffffffffff } } : State).engState
      = .active := by decide

theorem test_witness_PadWordParts :
    (running (seqBytes 7)).eng.TailClear ∧ (running (seqBytes 8)).eng.TailClear ∧ (running (seqBytes 8)).eng.ntail = 0 ∧
    (running (List.replicate 256 0)).eng.TailClear ∧ (running (List.replicate 256 0)).eng.ntail = 0 ∧
    (running (List.replicate 256 0)).eng.length.toNat % 256 = 0 := by
  unfold Engine.TailClear
  decide +kernel

theorem test_witness_FinishReturnsSipHash : keyed.keysValid = true ∧
    [Instr.update (seqBytes 3), .updateU8 3].map Instr.absorbed? = [seqBytes 3, [3]].map some ∧
    ([] : List Instr).map Instr.absorbed? = ([] : List (List Byte)).map some := by decide

theorem test_witness_OneShotEquivalence : (running [1]).keysValid = true := by decide

theorem test_witness_LoadkeyCompletes : State.reset.engState ≠ .fault ∧ (running [1]).engState ≠ .fault ∧
    seen id (exec (.loadkey 1 2) State.reset)
      = some { State.reset with k0 := 1, k1 := 2, keysValid := true, tx := [0x00] } ∧
    seen (fun s => s.tx) (exec (.loadkey 1 2) { State.reset with k0 := 1, k1 := 2, keysValid := true, tx := [0x00] })
      = some [0x00, 0x00] := by decide

theorem test_witness_InitCompletes : (keyed.keysValid = true ∧ keyed.engState ≠ .fault) ∧
    ((running [1]).keysValid = true ∧ (running [1]).engState ≠ .fault) ∧
    (State.reset.keysValid = false ∧ State.reset.engState ≠ .fault) := by decide

theorem test_witness_UpdateCompletes (b : Byte) :
    (List.replicate (2 ^ 32 - 1) b).length ≤ 2 ^ 32 - 1 ∧ (running [1]).engState = .active ∧ keyed.engState ≠ .active ∧
    (running (seqBytes 7)).eng.TailClear ∧ 0 < (running (seqBytes 7)).eng.ntail.toNat ∧
    [b].length = 8 - (running (seqBytes 7)).eng.ntail.toNat ∧
    ([] : List Byte).length < 8 - (running (seqBytes 7)).eng.ntail.toNat := by
  have h : (running (seqBytes 7)).eng.ntail.toNat = 7 ∧ (running (seqBytes 7)).eng.TailClear := by
    unfold Engine.TailClear
    decide +kernel
  refine ⟨le_of_eq List.length_replicate, rfl, by decide, h.2, ?_, ?_, ?_⟩ <;> rw [h.1] <;> simp

theorem test_witness_UpdateU8Completes :
    (running (seqBytes 6)).engState = .active ∧ ((running (seqBytes 6)).eng.TailClear ∧
      (running (seqBytes 6)).eng.ntail.toNat < 7) ∧ (running (seqBytes 7)).eng.ntail.toNat = 7 ∧
    faulted.engState ≠ .active ∧
    (running (seqBytes 3)).eng.tail = 0x0000000000020100 ∧ (running (seqBytes 3)).eng.ntail = 3 := by
  unfold Engine.TailClear
  decide +kernel

theorem test_witness_FinishCompletes : (running []).engState = .active ∧ State.reset.engState ≠ .active ∧
    (running []).keysValid = true := by decide

theorem test_witness_DigestCompletes : ([] : List Byte).length ≤ 2 ^ 32 - 1 ∧
    ((running [1]).keysValid = true ∧ (running [1]).engState ≠ .fault) ∧
    (State.reset.keysValid = false ∧ State.reset.engState ≠ .fault) := by decide

theorem test_witness_DigestU8Completes : (keyed.keysValid = true ∧ keyed.engState ≠ .fault) ∧
    (State.reset.keysValid = false ∧ State.reset.engState ≠ .fault) := by decide

theorem test_witness_IllegalOpcodeCompletes :
    ((0x08 : Byte) = 0x00 ∨ 0x08 ≤ (0x08 : Byte).toNat) ∧ ((0x00 : Byte) = 0x00 ∨ 0x08 ≤ (0x00 : Byte).toNat) ∧
    (running []).engState ≠ .fault ∧ (running []).cmdReady = true ∧ (running []).rx = [] ∧
    (doing [.send [0x08, 0x02]] (running [])).host = .send [0x08, 0x02] :: [] := by decide

theorem test_witness_NoKeyFault :
    State.reset.keysValid = false ∧ failCause (.digest []) = some .noKey ∧ (Instr.digest [0x2a]).wellFormed = true ∧
    State.reset.cmdReady = true ∧ State.reset.rx = [] ∧ 0 < 5 ∧ 5 < (encode (.digest [0x2a])).length ∧
    (doing [.send [0x06, 1, 0, 0, 0]] State.reset).host = .send ((encode (.digest [0x2a])).take 5) :: [] := by decide

theorem test_witness_NotActiveFault :
    keyed.engState = .idle ∧ failCause (.updateU8 1) = some .notActive ∧ (Instr.updateU8 1).wellFormed = true ∧
    keyed.cmdReady = true ∧ keyed.rx = [] ∧ 0 < 1 ∧ 1 < (encode (.updateU8 1)).length ∧
    (doing [.send [0x04]] keyed).host = .send ((encode (.updateU8 1)).take 1) :: [] := by decide

theorem test_witness_FaultEntryWrites : passesCheck .init State.reset = false ∧ passesCheck .finish keyed = false ∧
    passesCheck (.illegal 0xff) (running []) = false := by decide

theorem test_witness_PassingCommandAnswersOk :
    passesCheck (.update []) (running []) = true ∧ (running (seqBytes 15)).engState = .active ∧
    (seen (fun s => s.engState) (exec .finish (running (seqBytes 15)))) = some .idle := by decide +kernel

/-- In FAULT the host takes the fault response, and then drives RST. -/
theorem test_witness_FaultIsTerminal :
    faulted.engState = .fault ∧
    seen id (step { faulted with tx := [0x03], host := [.take] }) = some { faulted with delivered := [0x03] } ∧
    seen id (step (doing [.rst true] faulted)) = some { State.reset with rst := true } := by decide

theorem test_witness_WriteSets : passesCheck .finish (running []) = true ∧ passesCheck .finish State.reset = false := by
  decide

/-- A step of each case: RST, a failed check, INIT, FINISH, and one that leaves ENG_STATE; and one in FAULT. -/
theorem test_witness_EngStateTransitions :
    seen (fun s => s.engState) (step { faulted with tx := [0x03], host := [.take] }) = some .fault ∧
    (seen (fun s => s.engState) (step (doing [.rst true] faulted)),
      seen (fun s => s.engState) (step (doing [.send [0x05]] keyed)),
      seen (fun s => s.engState) (step (doing [.send [0x02]] keyed)),
      seen (fun s => s.engState) (step (doing [.send [0x05]] (running []))),
      seen (fun s => s.engState) (step (doing [.send [0x04, 1]] (running []))))
      = (some .idle, some .fault, some .active, some .idle, some .active) := by decide +kernel

theorem test_witness_KeysValidWriters :
    seen (fun s => s.keysValid) (exec (.loadkey 1 2) State.reset) = some true ∧
    seen (fun s => s.keysValid) (step (doing [.rst true] keyed)) = some false ∧
    seen (fun s => s.keysValid) (step (doing [.send [0x02]] keyed)) = some true := by decide

theorem test_witness_CauseExactlyInFault :
    (keyed.cause ≠ 0 ↔ keyed.engState = .fault) ∧ (faulted.cause ≠ 0 ↔ faulted.engState = .fault) ∧
    seen (fun s => s.cause) (step (doing [.send [0x05]] keyed)) = some 0x03 := by decide

theorem test_witness_StatusLayout : keyed.rx = [] ∧ keyed.tx = [] := by decide

theorem test_witness_ResetLeaves : (doing [.rst true, .take] faulted).host = .rst true :: [.take] ∧
    (doing [.rst false] { State.reset with rst := true }).host = .rst false :: [] ∧
    { State.reset with rst := true }.rst = true := by decide

/-- The invariant holds of a state in ACTIVE with a pending byte and a partial frame, and the next step, which
completes that frame, gives a next state. -/
theorem test_witness_StepKeepsInv :
    State.Inv { running [1] with rx := [0x04], host := [.send [0x2a]] } ∧
    seen (fun s => s.eng.ntail) (step { running [1] with rx := [0x04], host := [.send [0x2a]] }) = some 2 := by
  refine ⟨?_, by decide +kernel⟩
  constructor
  · decide
  · intro _
    unfold Engine.TailClear
    decide +kernel
  · decide +kernel
  · decide
  · decide
  · decide
  · decide

/-- Two states that hold different numbers where the spec has no value. -/
theorem test_witness_NoValueIsNeverRead :
    SameToHost State.reset { State.reset with k0 := 5, eng := (running [1]).eng, fresh := 9 } := by
  constructor <;> rfl

theorem test_witness_StepRunsDecodedFrame :
    (doing [.send [0x2a, 0x05]] { running [] with rx := [0x04] }).host = .send [0x2a, 0x05] :: [] ∧
    ([0x2a, 0x05] : List Byte) ≠ [] ∧ (running []).rst = false ∧ (running []).engState ≠ .fault ∧ (running []).tx = [] ∧
    decode ([0x04] ++ [0x2a, 0x05]) = .frame (.updateU8 0x2a) [0x05] := by decide

theorem test_witness_IncompleteFrameIsKept :
    (doing [.send [0x03]] keyed).host = .send [0x03] :: [] ∧ ([0x03] : List Byte) ≠ [] ∧ keyed.cmdReady = true ∧
    decode (keyed.rx ++ [0x03]) = .needMore := by decide

theorem test_witness_FramePiecesJoin :
    ([0x04] : List Byte) ≠ [] ∧ ([0x2a] : List Byte) ≠ [] ∧ (running []).cmdReady = true ∧
    decode ((running []).rx ++ [0x04]) = .needMore ∧
    seen id (step (doing [.send [0x04], .send [0x2a]] (running [])))
      = some { running [] with rx := [0x04], host := [.send [0x2a]] } := by decide +kernel

theorem test_witness_WholeFrameBeforeCheck :
    (Instr.digest [1]).wellFormed = true ∧ (∀ op, Instr.digest [1] ≠ .illegal op) ∧ State.reset.cmdReady = true ∧
    State.reset.rx = [] ∧ 0 < 5 ∧ 5 < (encode (.digest [1])).length ∧
    (doing [.send [0x06, 1, 0, 0, 0]] State.reset).host = .send ((encode (.digest [1])).take 5) :: [] ∧
    (doing [.send [0x06, 1, 0, 0, 0, 1]] State.reset).host = .send (encode (.digest [1])) :: [] := by
  refine ⟨by decide, ?_, by decide, by decide, by decide, by decide, by decide, by decide⟩
  intro op h
  cases h

theorem test_witness_BytesTakenOnlyWhenReady :
    seen (fun s => offeredBytes s.host) (step (doing [.send [0x02, 0x05]] keyed)) = some [0x05] ∧
    offeredBytes (doing [.send [0x02, 0x05]] keyed).host = [0x02, 0x05] := by decide +kernel

/-- Each stop is met: test_halted, test_held_in_reset, test_next_frame_waits_for_response and
test_take_without_response_waits give the other four. -/
theorem test_witness_StopsOnlyWhenStuck : stop? (step { keyed with rx := [0x04] }) = some .frameIncomplete := by decide

theorem test_witness_ResponsesInOrder :
    seen (fun s => (s.delivered, s.tx)) (step { keyed with tx := [0x00, 0x31], delivered := [0x07], host := [.take] })
      = some ([0x07, 0x00], [0x31]) ∧
    seen (fun s => (s.delivered, s.tx)) (step { keyed with rx := [], delivered := [0x07], host := [.send [0x04]] })
      = some ([0x07], []) := by decide

theorem test_witness_ResponsesInOrder_rst :
    RstStep { keyed with tx := [0x00], host := [.rst true] } (applyRst true { keyed with tx := [0x00], host := [] }) :=
  ⟨true, [], rfl, .inl rfl, rfl⟩

/-- A command step: FINISH without an engine, byte 02 still offered. -/
theorem test_witness_ResponsesInOrder_command :
    CommandStep (doing [.send [0x05, 0x02]] keyed) (raise .notActive (doing [.send [0x02]] keyed)) .finish
      (doing [.send [0x02]] keyed) ∧
    commandResponse .finish keyed = [0x03] :=
  ⟨⟨by decide, ⟨[0x05, 0x02], [0x02], [], rfl, by decide, rfl, rfl⟩, rfl⟩, by decide⟩

theorem test_witness_ResponseLengths : passesCheck (.digestU8 0) keyed = true ∧
    passesCheck (.digestU8 0) State.reset = false := by decide

/-- The premises of the transaction run, from reset; LOADKEY 1, 2 and DIGEST []. -/
theorem test_witness_OneShotTransactions :
    (Instr.digest []).wellFormed = true ∧ State.reset.cmdReady = true ∧ State.reset.rx = [] ∧
    (doing ([.send (encode (.loadkey 1 2)), .take, .send (encode (.digest []))] ++ List.replicate 9 .take ++ [])
      State.reset).host
      = [.send (encode (.loadkey 1 2)), .take, .send (encode (.digest []))] ++ List.replicate 9 .take ++ [] := by decide

theorem test_witness_RepeatedCommands :
    seen (fun s => s.tx) (exec (.loadkey 1 2) State.reset) = some [0x00] ∧ keyed.keysValid = true ∧
    seen (fun s => s.engState) (exec .init keyed) = some .active ∧ (running []).engState = .active ∧
    seen (fun s => s.engState) (exec .finish (running [])) = some .idle ∧
    seen (fun s => s.keysValid) (exec (.digest []) keyed) = some true ∧
    seen (fun s => s.keysValid) (exec (.digestU8 1) keyed) = some true := by decide +kernel

theorem test_witness_UpdateLongExpansion : (running []).engState = .active ∧ keyed.keysValid = true ∧
    updateLong [] = [.update []] ∧ updateLong [1, 2] = [.update [1, 2]] := by
  decide

theorem test_witness_AssemblerAcceptsWellFormed :
    assemble (.update [0, 255]) = some [.update [0x00, 0xff]] ∧ (∀ b ∈ [0, 255], b ≤ 0xff) ∧
    (∃ b ∈ [0, 256], 0xff < b) ∧
    ["INIT", "DIGEST_U8 0xff"].map assembleLine = [[.init], [.digestU8 0xff]].map some ∧
    "init" ∈ ["INIT", "init"] ∧ assembleLine "init" = none := by decide +kernel

theorem test_witness_AssemblerAcceptsWellFormed_long (b : Nat) (h : b ≤ 0xff) :
    2 ^ 32 - 1 < (List.replicate (2 ^ 32) b).length ∧ ∀ x ∈ List.replicate (2 ^ 32) b, x ≤ 0xff := by
  refine ⟨?_, fun x hx => ?_⟩
  · rw [List.length_replicate]
    decide
  · rw [List.eq_of_mem_replicate hx]
    exact h

theorem test_witness_AssemblerReadsText :
    (Instr.digest [0x2a, 0x00]).wellFormed = true ∧ ';' ∉ "INIT ".toList ∧
    (lineText (.digest [0x2a, 0x00]) = some "DIGEST [2a 00]".toList ∧
      lineText (.loadkey 7 0) = some "LOADKEY 0x0000000000000007, 0x0000000000000000".toList) ∧
    (tokens [] "init".toList = .word "init".toList :: [] ∧ "init" ∉ mnemonics) ∧
    (tokens [] "LOADKEY 18446744073709551616,0".toList
        = [.word "LOADKEY".toList, .word "18446744073709551616".toList, .comma, .word "0".toList] ∧
      literal "18446744073709551616".toList = some (2 ^ 64) ∧ literal "0".toList = some 0) ∧
    (tokens [] "UPDATE_U8 0x100".toList = [.word "UPDATE_U8".toList, .word "0x100".toList] ∧
      literal "0x100".toList = some 256) := by decide +kernel

theorem test_witness_ExecInFaultFollowsPseudocode :
    faulted.engState = .fault ∧ faulted.keysValid = true ∧ { faulted with keysValid := false }.keysValid = false ∧
    failCause .init = some .noKey ∧ failCause .finish = some .notActive := by decide

end Sys2Proof.Tests
end

section
/-! PROOFS. What Absorb does to TAIL, NTAIL and LENGTH (41_absorption.md R121, R126, R128). -/

namespace Sys2Proof.Machine

/-- The TAIL invariant bit by bit. -/
theorem Engine.tailClear_iff (e : Engine) :
    e.TailClear ↔ ∀ j, 8 * e.ntail.toNat ≤ j → e.tail.getLsbD j = false := by
  unfold Engine.TailClear
  constructor
  · intro h j hj
    have hbit := congrArg (fun w : Word => w.getLsbD (j - 8 * e.ntail.toNat)) h
    simpa [Nat.add_sub_cancel' hj] using hbit
  · intro h
    apply BitVec.eq_of_getLsbD_eq
    intro j _
    simpa using h _ (Nat.le_add_right _ j)

theorem keyInit_tailClear (k0 k1 : Word) : (keyInit k0 k1).TailClear := rfl

/-- Steps 3 and 4 of Absorb keep LENGTH and leave as TAIL the bytes beyond the last full word (41_absorption.md R121). -/
theorem absorbFull_remainder (e : Engine) (bs : List Byte) :
    ∃ lanes rest, rest.length = bs.length % 8 ∧
      absorbFull e bs =
        { lanes := lanes, tail := le64 rest, ntail := BitVec.ofNat 3 rest.length, length := e.length } := by
  by_cases h : bs.length < 8
  · exact ⟨e.lanes, bs, (Nat.mod_eq_of_lt h).symm, absorbFull_short e h⟩
  · obtain ⟨lanes, rest, hlen, heq⟩ :=
      absorbFull_remainder { e with lanes := compress e.lanes (le64 (bs.take 8)) } (bs.drop 8)
    refine ⟨lanes, rest, ?_, ?_⟩
    · rw [hlen, List.length_drop]
      omega
    · rw [absorbFull_block e (by omega), heq]
termination_by bs.length

theorem absorbFull_length (e : Engine) (bs : List Byte) : (absorbFull e bs).length = e.length := by
  obtain ⟨lanes, rest, -, heq⟩ := absorbFull_remainder e bs
  rw [heq]

theorem absorbFull_ntail (e : Engine) (bs : List Byte) : (absorbFull e bs).ntail.toNat = bs.length % 8 := by
  obtain ⟨lanes, rest, hlen, heq⟩ := absorbFull_remainder e bs
  rw [heq, BitVec.toNat_ofNat, hlen]
  omega

theorem absorbFull_tailClear (e : Engine) (bs : List Byte) : (absorbFull e bs).TailClear := by
  rw [Engine.tailClear_iff, absorbFull_ntail]
  obtain ⟨lanes, rest, hlen, heq⟩ := absorbFull_remainder e bs
  intro j hj
  rw [heq]
  exact getLsbD_packLE_of_le (by omega)

/-- Step 1 of Absorb counts every byte (41_absorption.md R121). -/
theorem absorb_length (e : Engine) (bs : List Byte) :
    (absorb e bs).length = e.length + BitVec.ofNat 64 bs.length := by
  rcases Nat.eq_zero_or_pos e.ntail.toNat with h0 | hpos
  · rw [absorb_of_empty_tail bs h0, absorbFull_length]
  · rcases Nat.lt_or_ge (e.ntail.toNat + bs.length) 8 with hs | hs
    · rw [absorb_of_short hpos hs]
    · rw [absorb_of_completion hpos hs, absorbFull_length]

/-- NTAIL counts modulo the block size. -/
theorem absorb_ntail (e : Engine) (bs : List Byte) :
    (absorb e bs).ntail.toNat = (e.ntail.toNat + bs.length) % 8 := by
  rcases Nat.eq_zero_or_pos e.ntail.toNat with h0 | hpos
  · rw [absorb_of_empty_tail bs h0, absorbFull_ntail, h0, Nat.zero_add]
  · rcases Nat.lt_or_ge (e.ntail.toNat + bs.length) 8 with hs | hs
    · rw [absorb_of_short hpos hs, BitVec.toNat_ofNat]
    · rw [absorb_of_completion hpos hs, absorbFull_ntail, List.length_drop]
      have := e.ntail.isLt
      omega

/-- Bytes ORed in above a clear TAIL leave the positions above them clear. -/
theorem tailWith_clear_above {e : Engine} (h : e.TailClear) {bs : List Byte} {j : Nat}
    (hj : 8 * (e.ntail.toNat + bs.length) ≤ j) : (e.tailWith bs).getLsbD j = false := by
  have hold : e.tail.getLsbD j = false := e.tailClear_iff.1 h j (by omega)
  have hnew : (le64 bs).getLsbD (j - 8 * e.ntail.toNat) = false := getLsbD_packLE_of_le (by omega)
  rw [Engine.tailWith, BitVec.getLsbD_or, BitVec.getLsbD_shiftLeft, hold, hnew]
  simp

/-- Absorb keeps the TAIL invariant (41_absorption.md R126). -/
theorem absorb_tailClear {e : Engine} (h : e.TailClear) (bs : List Byte) : (absorb e bs).TailClear := by
  rcases Nat.eq_zero_or_pos e.ntail.toNat with h0 | hpos
  · rw [absorb_of_empty_tail bs h0]
    exact absorbFull_tailClear _ _
  · rcases Nat.lt_or_ge (e.ntail.toNat + bs.length) 8 with hs | hs
    · rw [Engine.tailClear_iff, absorb_ntail, Nat.mod_eq_of_lt hs, absorb_of_short hpos hs]
      exact fun j hj => tailWith_clear_above h hj
    · rw [absorb_of_completion hpos hs]
      exact absorbFull_tailClear _ _

/-- Absorb keeps `NTAIL = LENGTH mod 8`, through LENGTH's wrap too (41_absorption.md R128). -/
theorem absorb_keeps_count {e : Engine} (h : e.ntail.toNat = e.length.toNat % 8) (bs : List Byte) :
    (absorb e bs).ntail.toNat = (absorb e bs).length.toNat % 8 := by
  rw [absorb_ntail, absorb_length, h, BitVec.toNat_add, BitVec.toNat_ofNat]
  omega

end Sys2Proof.Machine
end

section
/-! PROOFS. What a command writes to CAUSE, ENG_STATE and KEYS_VALID, and which steps write a register at all. -/

namespace Sys2Proof.Machine

theorem FaultCause.code_ne_zero (c : FaultCause) : c.code ≠ 0 := by
  cases c <;> decide

theorem FaultCause.code_le_three (c : FaultCause) : c.code.toNat ≤ 3 := by
  cases c <;> decide

/-- `exec_cases` for the next state at hand. -/
theorem exec_next_cases {i : Instr} {s t : State} (h : exec i s = .next t) :
    (∃ c, passesCheck i s = false ∧ failCause i = some c ∧ t = raise c s) ∨
    (∃ k0 k1, i = .loadkey k0 k1 ∧ t = respond [okByte] { s with k0 := k0, k1 := k1, keysValid := true }) ∨
    (i = .init ∧ s.keysValid = true ∧ t = respond [okByte] { s with eng := keyInit s.k0 s.k1, engState := .active }) ∨
    (∃ bs, i.absorbed? = some bs ∧ s.engState = .active ∧ t = respond [okByte] { s with eng := absorb s.eng bs }) ∨
    (i = .finish ∧ s.engState = .active ∧ t = respond (digestResponse (finalize s.eng)) (consumeEngine s)) ∨
    (∃ bs, (i = .digest bs ∨ ∃ b, i = .digestU8 b ∧ bs = [b]) ∧ s.keysValid = true ∧
      t = respond (digestResponse (sipHash24 s.k0 s.k1 bs)) s) := by
  obtain ⟨u, hu, hcases⟩ := exec_cases i s
  obtain rfl : u = t := by simpa [hu] using h
  exact hcases

theorem absorbed_cases {i : Instr} {bs : List Byte} (h : i.absorbed? = some bs) :
    i = .update bs ∨ ∃ b, i = .updateU8 b ∧ bs = [b] := by
  cases i <;> simp_all [Instr.absorbed?]

/-- Of the commands only LOADKEY writes KEYS_VALID (10_state.md R22). -/
theorem exec_keysValid {i : Instr} {s t : State} (h : exec i s = .next t) :
    (∃ k0 k1, i = .loadkey k0 k1) ∨ t.keysValid = s.keysValid := by
  rcases exec_next_cases h with ⟨c, -, -, rfl⟩ | ⟨k0, k1, rfl, -⟩ | ⟨-, -, rfl⟩ | ⟨bs, -, -, rfl⟩ | ⟨-, -, rfl⟩ |
    ⟨bs, -, -, rfl⟩
  · exact .inr rfl
  · exact .inl ⟨k0, k1, rfl⟩
  · exact .inr rfl
  · exact .inr rfl
  · exact .inr rfl
  · exact .inr rfl

/-- A command outside FAULT enters it with a code, or keeps CAUSE and stays outside. -/
theorem exec_cause {i : Instr} {s t : State} (hf : s.engState ≠ .fault) (h : exec i s = .next t) :
    (∃ c : FaultCause, t.cause = c.code ∧ t.engState = .fault) ∨ (t.cause = s.cause ∧ t.engState ≠ .fault) := by
  rcases exec_next_cases h with ⟨c, -, -, rfl⟩ | ⟨k0, k1, -, rfl⟩ | ⟨-, -, rfl⟩ | ⟨bs, -, -, rfl⟩ | ⟨-, -, rfl⟩ |
    ⟨bs, -, -, rfl⟩
  · exact .inl ⟨c, rfl, rfl⟩
  · exact .inr ⟨rfl, hf⟩
  · exact .inr ⟨rfl, by simp⟩
  · exact .inr ⟨rfl, hf⟩
  · exact .inr ⟨rfl, by simp⟩
  · exact .inr ⟨rfl, hf⟩

/-- A command outside FAULT keeps "CAUSE is non-zero exactly when ENG_STATE = FAULT" (10_state.md R33). -/
theorem exec_causeFault {i : Instr} {s t : State} (hs : s.cause ≠ 0 ↔ s.engState = .fault)
    (hf : s.engState ≠ .fault) (h : exec i s = .next t) : t.cause ≠ 0 ↔ t.engState = .fault := by
  rcases exec_cause hf h with ⟨c, hcause, hstate⟩ | ⟨hcause, hstate⟩
  · rw [hcause]
    exact iff_of_true c.code_ne_zero hstate
  · rw [hcause]
    exact iff_of_false (fun hne => hf (hs.1 hne)) hstate

theorem CommandStep.cmdReady {s t s0 : State} {i : Instr} (h : CommandStep s t i s0) : s.cmdReady = true := h.1

/-- A command runs on the registers and the response channel that the step found. -/
theorem CommandStep.exec_eq {s t s0 : State} {i : Instr} (h : CommandStep s t i s0) :
    exec i { s with rx := [], host := s0.host } = .next t := by
  obtain ⟨-, ⟨bytes, left, acts, -, -, -, rfl⟩, he⟩ := h
  exact he

theorem CommandStep.not_fault {s t s0 : State} {i : Instr} (h : CommandStep s t i s0) : s.engState ≠ .fault :=
  ((cmdReady_iff s).1 h.cmdReady).2.1

/-- `step_cases` with its last case named: the host's RST; a byte delivered; an act without effect; a partial frame
kept; or a command. -/
theorem step_command_cases {s t : State} (h : step s = .next t) :
    RstStep s t ∨
    (∃ acts, s.host = .take :: acts ∧ s.rspValid = true ∧ t = deliver acts s) ∨
    (∃ acts, offeredBytes acts = offeredBytes s.host ∧ t = { s with host := acts }) ∨
    (∃ bytes acts, s.cmdReady = true ∧ decode (s.rx ++ bytes) = .needMore ∧
      t = { s with rx := s.rx ++ bytes, host := acts }) ∨
    (∃ i s0, CommandStep s t i s0) := by
  rcases step_cases h with hr | hd | hn | ⟨bytes, acts, -, -, hc, hm, ht⟩ | ⟨bytes, acts, i, left, hh, hb, hc, hm, he⟩
  · exact .inl hr
  · exact .inr (.inl hd)
  · exact .inr (.inr (.inl hn))
  · exact .inr (.inr (.inr (.inl ⟨bytes, acts, hc, hm, ht⟩)))
  · exact .inr (.inr (.inr (.inr ⟨i, _, hc, ⟨bytes, left, acts, hh, hb, hm, rfl⟩, he⟩)))

/-- Only the host's RST and a command write a register: any other step touches the channels alone. -/
theorem step_writers {s t : State} (h : step s = .next t) :
    RstStep s t ∨ (∃ i s0, CommandStep s t i s0) ∨
      t = { s with rx := t.rx, tx := t.tx, host := t.host, delivered := t.delivered } := by
  rcases step_command_cases h with hr | ⟨acts, -, -, rfl⟩ | ⟨acts, -, rfl⟩ | ⟨bytes, acts, -, -, rfl⟩ | hc
  · exact .inl hr
  · exact .inr (.inr rfl)
  · exact .inr (.inr rfl)
  · exact .inr (.inr rfl)
  · exact .inr (.inl hc)

end Sys2Proof.Machine
end

section
/-! PROOFS. The invariant: it holds after reset, and every step keeps it. -/

namespace Sys2Proof.Machine

/-- Settles O42, clause by clause at the reset values. -/
theorem resetMeetsInv : Obligations.ResetMeetsInv := by
  unfold Obligations.ResetMeetsInv
  constructor <;> simp [State.reset]

/-- RST, at either level, gives the invariant from any state. -/
theorem applyRst_inv (level : Bool) (s : State) : (applyRst level s).Inv := by
  constructor <;> simp

/-- What the host still does and what it has taken are no part of the invariant. -/
theorem State.Inv.with_host {s : State} (h : s.Inv) (acts : List HostAct) : State.Inv { s with host := acts } :=
  { h with }

/-- The host takes a response byte: while one is pending there is no partial frame and no reset. -/
theorem State.Inv.deliver {s : State} (h : s.Inv) (hv : s.rspValid = true) (acts : List HostAct) :
    (deliver acts s).Inv := by
  obtain ⟨hrst, htx⟩ := (rspValid_iff s).1 hv
  have hrx : s.rx = [] := by_contra fun hne => htx (h.partialFrame hne).2.1
  exact { h with
    partialFrame := fun hne => absurd hrx hne
    heldInReset := fun hr => absurd hr (by simp [hrst]) }

/-- An incomplete frame is kept only where the block can take bytes. -/
theorem State.Inv.keep_partial {s : State} (h : s.Inv) (hc : s.cmdReady = true) {bytes : List Byte}
    (hm : decode (s.rx ++ bytes) = .needMore) (acts : List HostAct) :
    State.Inv { s with rx := s.rx ++ bytes, host := acts } := by
  obtain ⟨hrst, hf, htx⟩ := (cmdReady_iff s).1 hc
  exact { h with
    partialFrame := fun _ => ⟨hm, htx, hf⟩
    heldInReset := fun hr => absurd hr (by simp [hrst]) }

/-- A whole frame has been received: the receiver is empty again. -/
theorem State.Inv.clear_rx {s : State} (h : s.Inv) (hrst : s.rst = false) : State.Inv { s with rx := [] } :=
  { h with
    partialFrame := fun hne => absurd rfl hne
    heldInReset := fun hr => absurd hr (by simp [hrst]) }

/-- With no partial frame and RST at 0, as every command finds and leaves the block, the invariant speaks of the
registers alone. -/
theorem State.Inv.of_registers {s : State} (hrx : s.rx = []) (hrst : s.rst = false)
    (hactive : s.engState = .active →
      s.keysValid = true ∧ s.eng.TailClear ∧ s.eng.ntail.toNat = s.eng.length.toNat % 8)
    (hfault : s.cause ≠ 0 ↔ s.engState = .fault) (hcode : s.cause.toNat ≤ 3) : s.Inv where
  activeKeys ha := (hactive ha).1
  activeTail ha := (hactive ha).2.1
  activeCount ha := (hactive ha).2.2
  causeFault := hfault
  causeCode := hcode
  partialFrame hne := absurd hrx hne
  heldInReset hr := absurd hr (by simp [hrst])

/-- A command outside FAULT keeps the invariant. -/
theorem State.Inv.exec {i : Instr} {s t : State} (h : s.Inv) (hrx : s.rx = []) (hrst : s.rst = false)
    (hf : s.engState ≠ .fault) (he : exec i s = .next t) : t.Inv := by
  have hfault := exec_causeFault h.causeFault hf he
  have hactive (ha : s.engState = .active) := And.intro (h.activeTail ha) (h.activeCount ha)
  rcases exec_next_cases he with ⟨c, -, -, rfl⟩ | ⟨k0, k1, -, rfl⟩ | ⟨-, hk, rfl⟩ | ⟨bs, -, ha, rfl⟩ | ⟨-, -, rfl⟩ |
    ⟨bs, -, -, rfl⟩
  · exact .of_registers hrx hrst (by simp) hfault c.code_le_three
  · exact .of_registers hrx hrst (fun ha => ⟨rfl, hactive ha⟩) hfault h.causeCode
  · exact .of_registers hrx hrst (fun _ => ⟨hk, keyInit_tailClear _ _, rfl⟩) hfault h.causeCode
  · obtain ⟨htail, hcount⟩ := hactive ha
    exact .of_registers hrx hrst
      (fun _ => ⟨h.activeKeys ha, absorb_tailClear htail bs, absorb_keeps_count hcount bs⟩) hfault h.causeCode
  · exact .of_registers hrx hrst (by simp) hfault h.causeCode
  · exact .of_registers hrx hrst (fun ha => ⟨h.activeKeys ha, hactive ha⟩) hfault h.causeCode

/-- Settles O43, case by case over what a step can do. -/
theorem stepKeepsInv : Obligations.StepKeepsInv := by
  unfold Obligations.StepKeepsInv
  intro s t h hstep
  rcases step_command_cases hstep with ⟨level, acts, -, -, rfl⟩ | ⟨acts, -, hv, rfl⟩ | ⟨acts, -, rfl⟩ |
    ⟨bytes, acts, hc, hm, rfl⟩ | ⟨i, s0, hcmd⟩
  · exact applyRst_inv level _
  · exact h.deliver hv acts
  · exact h.with_host acts
  · exact h.keep_partial hc hm acts
  · obtain ⟨hrst, hf, htx⟩ := (cmdReady_iff s).1 hcmd.cmdReady
    exact ((h.clear_rx hrst).with_host s0.host).exec rfl hrst hf hcmd.exec_eq

end Sys2Proof.Machine
end

section
/-! PROOFS. The write sets, ENG_STATE's transitions, and the writers of KEYS_VALID and CAUSE (10_state.md R22, R32,
R33, R39). -/

namespace Sys2Proof.Machine

/-- Settles O36, one command at a time: the registers a command writes stand in its own arm. -/
theorem writeSets : Obligations.WriteSets := by
  unfold Obligations.WriteSets
  intro i s
  cases hp : passesCheck i s with
  | false =>
    obtain ⟨c, -, he⟩ := exec_of_failing hp
    exact ⟨_, he, fun _ => rfl, by simp⟩
  | true =>
    cases i with
    | loadkey k0 k1 => exact ⟨_, rfl, by simp, fun _ => rfl⟩
    | init => exact ⟨_, execInit_of_valid hp, by simp, fun _ => rfl⟩
    | update data => exact ⟨_, absorbCommand_of_active data (of_decide_eq_true hp), by simp, fun _ => rfl⟩
    | updateU8 b => exact ⟨_, absorbCommand_of_active [b] (of_decide_eq_true hp), by simp, fun _ => rfl⟩
    | finish => exact ⟨_, execFinish_of_active (of_decide_eq_true hp), by simp, fun _ => ⟨rfl, rfl⟩⟩
    | digest data => exact ⟨_, oneShot_of_valid data hp, by simp, fun _ => rfl⟩
    | digestU8 b => exact ⟨_, oneShot_of_valid [b] hp, by simp, fun _ => rfl⟩
    | illegal op => cases hp

/-- Settles O37: the table per command, then over every step by its writers. -/
theorem engStateTransitions : Obligations.EngStateTransitions := by
  unfold Obligations.EngStateTransitions
  refine ⟨?reset, ?command, ?writers, ?fault⟩
  case reset =>
    rintro s t ⟨level, acts, -, -, rfl⟩
    rfl
  case command =>
    intro i s t _ he
    rcases exec_next_cases he with ⟨c, hp, -, rfl⟩ | ⟨k0, k1, rfl, rfl⟩ | ⟨rfl, hk, rfl⟩ | ⟨bs, hi, ha, rfl⟩ |
      ⟨rfl, ha, rfl⟩ | ⟨bs, rfl | ⟨b, rfl, -⟩, hk, rfl⟩
    · simp [hp]
    · simp [passesCheck]
    · simp [passesCheck, hk]
    · rcases absorbed_cases hi with rfl | ⟨b, rfl, -⟩ <;> simp [passesCheck, ha]
    · simp [passesCheck, ha]
    · simp [passesCheck, hk]
    · simp [passesCheck, hk]
  case writers =>
    intro s t hstep
    rcases step_writers hstep with hr | ⟨i, s0, hcmd⟩ | ht
    · exact .inl hr
    · exact .inr (.inl ⟨i, s0, hcmd, hcmd.not_fault⟩)
    · exact .inr (.inr (by rw [ht]))
  case fault =>
    intro s t hstep hf
    rcases step_command_cases hstep with hr | ⟨acts, hh, -, rfl⟩ | ⟨acts, ho, rfl⟩ | ⟨bytes, acts, hc, -, -⟩ |
      ⟨i, s0, hcmd⟩
    · exact .inl hr
    · exact .inr ⟨hf, by simp [hh, offeredBytes]⟩
    · exact .inr ⟨hf, ho⟩
    · exact absurd hf ((cmdReady_iff s).1 hc).2.1
    · exact absurd hf hcmd.not_fault

/-- Settles O38: of the commands only LOADKEY writes KEYS_VALID, and every other step leaves the registers. -/
theorem keysValidWriters : Obligations.KeysValidWriters := by
  unfold Obligations.KeysValidWriters
  refine ⟨applyRst_keysValid, ?loadkey, ?writers⟩
  case loadkey =>
    intro k0 k1 s t he
    cases he
    rfl
  case writers =>
    intro s t hstep
    rcases step_writers hstep with hr | ⟨i, s0, hcmd⟩ | ht
    · exact .inl hr
    · rcases exec_keysValid hcmd.exec_eq with ⟨k0, k1, rfl⟩ | hk
      · exact .inr (.inl ⟨k0, k1, s0, hcmd⟩)
      · exact .inr (.inr hk)
    · exact .inr (.inr (by rw [ht]))

/-- Settles O39: outside FAULT a command raises a code with FAULT or keeps CAUSE at 0. -/
theorem causeExactlyInFault : Obligations.CauseExactlyInFault := by
  unfold Obligations.CauseExactlyInFault
  refine ⟨rfl, applyRst_cause, fun _ => ⟨rfl, rfl, rfl⟩, ?step⟩
  intro s t h hstep
  rcases step_writers hstep with ⟨level, acts, -, -, rfl⟩ | ⟨i, s0, hcmd⟩ | ht
  · simp
  · exact exec_causeFault (s := { s with rx := [], host := s0.host }) h hcmd.not_fault hcmd.exec_eq
  · rw [ht]
    exact h

end Sys2Proof.Machine
end

section
/-! PROOFS. STATUS and the reset (10_state.md R34, R38). -/

namespace Sys2Proof.Machine

/-- STATUS's bits 7:4 lie above STATE, KEYS_VALID and BUSY and below CAUSE (10_state.md R34). -/
theorem status_zeros (s : State) : s.status.extractLsb' 4 4 = 0 := by
  apply BitVec.eq_of_getLsbD_eq
  intro j hj
  have hstate : s.engState.code.getLsbD (4 + j) = false := BitVec.getLsbD_of_ge _ _ (by omega)
  have hkeys : 4 + j - 2 ≠ 0 := by omega
  have hbusy : 4 + j - 3 ≠ 0 := by omega
  have hcause : ¬ 8 ≤ 4 + j := by omega
  simp [State.status, BitVec.getLsbD_ofBool, hstate, hkeys, hbusy, hcause]

theorem busy_eq (s : State) : s.busy = (decide (s.rx ≠ []) || decide (s.tx ≠ [])) := by
  cases hrx : s.rx <;> cases htx : s.tx <;> simp [State.busy, hrx, htx]

/-- Settles O40, field by field. -/
theorem statusLayout : Obligations.StatusLayout := by
  unfold Obligations.StatusLayout
  refine ⟨fun s => ⟨?_, status_keysValid s, ?_, status_zeros s, status_cause s, ?_⟩, rfl⟩
  · rw [status_state]
    cases s.engState <;> rfl
  · rw [status_busy, busy_eq]
  · intro hrx htx
    rw [status_busy, busy_eq, hrx, htx]
    rfl

theorem applyRst_status (level : Bool) (s : State) : (applyRst level s).status = 0x0000 := by
  simp [State.status, State.busy, EngState.code]

/-- Settles O41: the host's RST is its next act, so the step is `applyRst`. -/
theorem resetLeaves : Obligations.ResetLeaves := by
  unfold Obligations.ResetLeaves
  refine ⟨?_, by decide⟩
  intro s level acts hh hl
  have hstep : step s = .next (applyRst level { s with host := acts }) := by
    have hl' : (level || s.rst) = true := by simpa using hl
    simp [step, hostAct, hh, driveRst, hl']
  exact ⟨_, hstep, rfl, rfl, rfl, applyRst_status _ _, rfl, rfl, rfl, rfl, rfl, rfl, by simp [State.cmdReady],
    by simp [State.rspValid]⟩

end Sys2Proof.Machine
end

section
/-! PROOFS. Noninterference: what holds no value shows at no port (10_state.md R29, R30, R36). -/

namespace Sys2Proof.Machine

namespace SameToHost

variable {s t : State}

theorem cmdReady (h : SameToHost s t) : s.cmdReady = t.cmdReady := by
  rw [State.cmdReady, State.cmdReady, h.rst, h.engState, h.tx]

theorem rspValid (h : SameToHost s t) : s.rspValid = t.rspValid := by
  rw [State.rspValid, State.rspValid, h.rst, h.tx]

theorem rspData (h : SameToHost s t) : s.rspData = t.rspData := by
  rw [State.rspData, State.rspData, h.rspValid, h.tx]

theorem status (h : SameToHost s t) : s.status = t.status := by
  rw [State.status, State.status, State.busy, State.busy, h.cause, h.rx, h.tx, h.keysValid, h.engState]

theorem waitReason (h : SameToHost s t) : waitReason s = waitReason t := by
  rw [Machine.waitReason, Machine.waitReason, h.rst, h.engState, h.tx, h.rx]

theorem with_host (h : SameToHost s t) (acts : List HostAct) :
    SameToHost { s with host := acts } { t with host := acts } :=
  { h with host := rfl }

theorem with_rx (h : SameToHost s t) (bytes : List Byte) : SameToHost { s with rx := bytes } { t with rx := bytes } :=
  { h with rx := rfl }

/-- Writing the same engine is seen alike, whether or not ENG_STATE lets it be read. -/
theorem with_eng (h : SameToHost s t) (e : Engine) : SameToHost { s with eng := e } { t with eng := e } :=
  { h with engine := by rw [State.engine?, State.engine?, h.engState] }

/-- LOADKEY's write gives the keys a value on both sides. -/
theorem with_keys (h : SameToHost s t) (k0 k1 : Word) :
    SameToHost { s with k0 := k0, k1 := k1, keysValid := true } { t with k0 := k0, k1 := k1, keysValid := true } :=
  { h with keysValid := rfl, keys := rfl }

/-- INIT's write gives the engine a value on both sides. -/
theorem with_active (h : SameToHost s t) (e : Engine) :
    SameToHost { s with eng := e, engState := .active } { t with eng := e, engState := .active } :=
  { h with engState := rfl, engine := rfl }

/-- The free values that FINISH leaves are not read, though the counters may differ. -/
theorem consumeEngine (h : SameToHost s t) : SameToHost (consumeEngine s) (consumeEngine t) :=
  { h with engState := rfl, engine := rfl }

theorem respond (h : SameToHost s t) (bs : List Byte) : SameToHost (respond bs s) (respond bs t) :=
  { h with tx := congrArg (· ++ bs) h.tx }

theorem raise (h : SameToHost s t) (c : FaultCause) : SameToHost (raise c s) (raise c t) :=
  { h with
    engState := rfl
    engine := rfl
    cause := rfl
    tx := congrArg (· ++ [c.code]) h.tx }

theorem deliver (h : SameToHost s t) (acts : List HostAct) : SameToHost (deliver acts s) (deliver acts t) :=
  { h with
    tx := congrArg List.tail h.tx
    host := rfl
    delivered := congrArg₂ (· ++ ·.take 1) h.delivered h.tx }

theorem applyRst (h : SameToHost s t) (level : Bool) : SameToHost (applyRst level s) (applyRst level t) :=
  { keysValid := rfl, keys := rfl, engState := rfl, engine := rfl, cause := rfl, rx := rfl, tx := rfl, rst := rfl,
    host := h.host, delivered := h.delivered }

theorem driveRst (h : SameToHost s t) (level : Bool) : SameToHost (driveRst level s) (driveRst level t) := by
  unfold Machine.driveRst
  rw [h.rst]
  split
  · exact h.applyRst level
  · exact h

end SameToHost

/-! ### No command and no step reads a register that holds no value -/

section Noninterference

variable {s t : State}

theorem absorbCommand_sameOutcome (h : SameToHost s t) (bs : List Byte) :
    SameOutcome (absorbCommand bs s) (absorbCommand bs t) := by
  unfold absorbCommand
  rw [h.engine]
  cases t.engine? with
  | none => exact h.raise .notActive
  | some e => exact (h.with_eng (absorb e bs)).respond _

theorem execInit_sameOutcome (h : SameToHost s t) : SameOutcome (execInit s) (execInit t) := by
  unfold execInit
  rw [h.keys]
  cases t.keys? with
  | none => exact h.raise .noKey
  | some k => exact (h.with_active (keyInit k.1 k.2)).respond _

theorem oneShot_sameOutcome (h : SameToHost s t) (msg : List Byte) : SameOutcome (oneShot msg s) (oneShot msg t) := by
  unfold oneShot
  rw [h.keys]
  cases t.keys? with
  | none => exact h.raise .noKey
  | some k => exact h.respond _

theorem execFinish_sameOutcome (h : SameToHost s t) : SameOutcome (execFinish s) (execFinish t) := by
  unfold execFinish
  rw [h.engine]
  cases t.engine? with
  | none => exact h.raise .notActive
  | some e => exact h.consumeEngine.respond _

/-- A command reads the keys and the engine only through `State.keys?` and `State.engine?`, where both sides agree. -/
theorem exec_sameOutcome (h : SameToHost s t) (i : Instr) : SameOutcome (exec i s) (exec i t) := by
  cases i with
  | loadkey k0 k1 => exact (h.with_keys k0 k1).respond _
  | init => exact execInit_sameOutcome h
  | update data => exact absorbCommand_sameOutcome h data
  | updateU8 b => exact absorbCommand_sameOutcome h [b]
  | finish => exact execFinish_sameOutcome h
  | digest data => exact oneShot_sameOutcome h data
  | digestU8 b => exact oneShot_sameOutcome h [b]
  | illegal op => exact h.raise .illegalOpcode

theorem waitForHost_sameOutcome (h : SameToHost s t) : SameOutcome (waitForHost s) (waitForHost t) := by
  unfold waitForHost
  rw [h.host]
  cases nextRst t.host with
  | none => exact h.waitReason
  | some r => exact (h.with_host r.2).driveRst r.1

theorem receive_sameOutcome (h : SameToHost s t) (bytes : List Byte) (acts : List HostAct) :
    SameOutcome (receive exec bytes acts s) (receive exec bytes acts t) := by
  unfold receive
  rw [h.rx]
  cases decode (t.rx ++ bytes) with
  | needMore => exact (h.with_rx (t.rx ++ bytes)).with_host acts
  | frame i left => exact exec_sameOutcome ((h.with_rx []).with_host (offerRest left acts)) i

/-- One step, by the host's next act. -/
theorem step_sameOutcome (h : SameToHost s t) : SameOutcome (step s) (step t) := by
  have hwait := waitForHost_sameOutcome h
  unfold step hostAct
  rw [h.host, h.rspValid, h.cmdReady]
  rcases t.host with _ | ⟨bytes | _ | level, acts⟩
  · exact hwait
  · dsimp only
    split
    · exact h.with_host acts
    · split
      · exact receive_sameOutcome h bytes acts
      · exact hwait
  · dsimp only
    split
    · exact h.deliver acts
    · exact hwait
  · exact (h.with_host acts).driveRst level

end Noninterference

/-- Settles O44, by what the step and each output read of the state. -/
theorem noValueIsNeverRead : Obligations.NoValueIsNeverRead := by
  unfold Obligations.NoValueIsNeverRead
  intro s t h
  exact ⟨step_sameOutcome h, h.status, h.cmdReady, h.rspValid, h.rspData⟩

end Sys2Proof.Machine
end

section
/-! PROOFS. The digest's bytes, what a command step finds and leaves on the response channel, and which commands may be
repeated (20_memory.md R55, R59 to R61). -/

namespace Sys2Proof.Machine

/-! ### The digest's byte order -/

/-- Packing the bytes of a word gives the word back, where there are enough of them (20_memory.md R55). -/
theorem packLE_bytesLE {n w : Nat} (v : BitVec w) (h : w ≤ 8 * n) : packLE w (bytesLE n v) = v := by
  apply BitVec.eq_of_getLsbD_eq
  intro j hj
  have hlt : j / 8 < (bytesLE n v).length := by rw [length_bytesLE]; omega
  have hbit : 8 * (j / 8) + j % 8 = j := by omega
  have hpos : j % 8 < 8 := by omega
  rw [getLsbD_packLE, List.getD_eq_getElem _ _ hlt, getElem_bytesLE]
  simp [hj, hbit, hpos]

/-- Settles O53: the response is OK before the digest's bytes, which pack back. -/
theorem digestByteOrder : Obligations.DigestByteOrder := by
  unfold Obligations.DigestByteOrder
  refine fun d => ⟨rfl, ?byte, packLE_bytesLE d le_rfl⟩
  case byte =>
    intro i hi
    have hlt : i < (bytesLE 8 d).length := by simpa using hi
    rw [digestResponse, List.getElem?_cons_succ, List.getElem?_eq_getElem hlt, getElem_bytesLE]

/-! ### The step of a whole frame -/

/-- The block can take a byte and the received bytes begin with a whole frame: the step runs it (20_memory.md R60). -/
theorem step_of_frame {s : State} {bytes left : List Byte} {acts : List HostAct} {i : Instr}
    (hh : s.host = .send bytes :: acts) (hb : bytes ≠ []) (hc : s.cmdReady = true)
    (hd : decode (s.rx ++ bytes) = .frame i left) :
    step s = exec i { s with rx := [], host := offerRest left acts } := by
  simp [step, hostAct, hh, hb, hc, receive, hd]

theorem offerRest_eq (left : List Byte) (acts : List HostAct) :
    offerRest left acts = if left = [] then acts else .send left :: acts := by
  cases left <;> rfl

/-- Settles O45, by `step_of_frame`. -/
theorem stepRunsDecodedFrame : Obligations.StepRunsDecodedFrame := by
  unfold Obligations.StepRunsDecodedFrame
  intro s bytes left acts i hh hb hrst hf htx hd
  rw [step_of_frame hh hb ((cmdReady_iff s).2 ⟨hrst, hf, htx⟩) hd, offerRest_eq]

/-! ### Responses in order -/

/-- The response depends on the registers alone, not on the receiver or the host's acts. -/
theorem commandResponse_with_channels (i : Instr) (s : State) (bytes : List Byte) (acts : List HostAct) :
    commandResponse i { s with rx := bytes, host := acts } = commandResponse i s := by
  cases i <;> rfl

/-- Pending bytes do not show in the next response. -/
theorem commandResponse_respond (i : Instr) (bs : List Byte) (s : State) :
    commandResponse i (respond bs s) = commandResponse i s := by
  cases i <;> rfl

/-- A command step finds no pending byte, leaves exactly its response pending, and delivers nothing. -/
theorem CommandStep.response {s t s0 : State} {i : Instr} (h : CommandStep s t i s0) :
    s.tx = [] ∧ t.tx = commandResponse i s ∧ t.delivered = s.delivered := by
  obtain ⟨-, -, htx⟩ := (cmdReady_iff s).1 h.cmdReady
  obtain ⟨hresp, hdel⟩ := exec_response h.exec_eq
  rw [commandResponse_with_channels] at hresp
  exact ⟨htx, by simpa [htx] using hresp, hdel⟩

/-- The host takes a byte while one is offered. -/
theorem step_of_take {s : State} {acts : List HostAct} (hh : s.host = .take :: acts) (hv : s.rspValid = true) :
    step s = .next (deliver acts s) := by
  simp [step, hostAct, hh, hv]

theorem deliver_of_cons {s : State} {b : Byte} {rest : List Byte} (acts : List HostAct) (h : s.tx = b :: rest) :
    deliver acts s = { s with tx := rest, delivered := s.delivered ++ [b], host := acts } := by
  simp [deliver, h]

/-- Settles O51, case by case over what a step can do. -/
theorem responsesInOrder : Obligations.ResponsesInOrder := by
  unfold Obligations.ResponsesInOrder
  refine ⟨?kept, ?reset, ?command, ?take, ?other⟩
  case kept =>
    intro s t hstep
    rcases step_command_cases hstep with ⟨level, acts, -, -, rfl⟩ | ⟨acts, -, -, rfl⟩ | ⟨acts, -, rfl⟩ |
      ⟨bytes, acts, -, -, rfl⟩ | ⟨i, s0, hcmd⟩
    · exact List.prefix_rfl
    · exact List.prefix_append _ _
    · exact List.prefix_rfl
    · exact List.prefix_rfl
    · obtain ⟨-, -, hdel⟩ := hcmd.response
      rw [hdel]
  case reset =>
    rintro s t ⟨level, acts, -, -, rfl⟩
    exact ⟨rfl, rfl⟩
  case command =>
    intro s t i s0 hcmd
    obtain ⟨hnone, hresp, hdel⟩ := hcmd.response
    exact ⟨hnone, hresp, hresp ▸ commandResponse_ne_nil i s, hdel⟩
  case take =>
    intro s b rest acts hh hrst htx
    rw [step_of_take hh ((rspValid_iff s).2 ⟨hrst, by simp [htx]⟩), deliver_of_cons acts htx]
  case other =>
    intro s t hstep hnr hnc
    rcases step_command_cases hstep with hr | ⟨acts, hh, hv, -⟩ | ⟨acts, -, rfl⟩ | ⟨bytes, acts, -, -, rfl⟩ |
      ⟨i, s0, hcmd⟩
    · exact absurd hr hnr
    · exact .inl ⟨by rw [hh]; rfl, (rspValid_iff s).1 hv⟩
    · exact .inr ⟨rfl, rfl⟩
    · exact .inr ⟨rfl, rfl⟩
    · exact absurd hcmd (hnc i s0)

/-! ### Repeated commands -/

theorem exec_init_next {s t : State} (hk : s.keysValid = true) (h : exec .init s = .next t) :
    t = respond [okByte] { s with eng := keyInit s.k0 s.k1, engState := .active } :=
  Host.Outcome.next.inj (h.symm.trans (execInit_of_valid hk))

theorem exec_finish_next {s t : State} (ha : s.engState = .active) (h : exec .finish s = .next t) :
    t = respond (digestResponse (finalize s.eng)) (consumeEngine s) :=
  Host.Outcome.next.inj (h.symm.trans (execFinish_of_active ha))

theorem exec_finish_next_of_not_active {s t : State} (ha : s.engState ≠ .active) (h : exec .finish s = .next t) :
    t = raise .notActive s :=
  Host.Outcome.next.inj (h.symm.trans (execFinish_of_not_active ha))

/-- DIGEST and DIGEST_U8 only respond, where there are keys (20_memory.md R59). -/
theorem exec_oneShot_next {i : Instr} {s t : State} (hk : s.keysValid = true)
    (hi : (∃ data, i = .digest data) ∨ ∃ b, i = .digestU8 b) (h : exec i s = .next t) :
    ∃ resp, t = respond resp s := by
  rcases hi with ⟨data, rfl⟩ | ⟨b, rfl⟩
  · exact ⟨_, Host.Outcome.next.inj (h.symm.trans (oneShot_of_valid data hk))⟩
  · exact ⟨_, Host.Outcome.next.inj (h.symm.trans (oneShot_of_valid [b] hk))⟩

/-- Settles O55: what each command leaves is what it would write again, but FINISH leaves no engine for a second. -/
theorem repeatedCommands : Obligations.RepeatedCommands := by
  unfold Obligations.RepeatedCommands
  refine ⟨?loadkey, ?init, ?finish, ?digest⟩
  case loadkey =>
    intro s t u k0 k1 ht hu
    cases ht
    cases hu
    rfl
  case init =>
    intro s t u hk ht hu
    obtain rfl := exec_init_next hk ht
    obtain rfl := exec_init_next (by simpa using hk) hu
    rfl
  case finish =>
    intro s t u ha ht hu
    have hidle : t.engState ≠ .active := by simp [exec_finish_next ha ht]
    obtain rfl := exec_finish_next_of_not_active hidle hu
    exact ⟨rfl, rfl⟩
  case digest =>
    intro s t u i hk hi ht hu
    obtain ⟨resp, rfl⟩ := exec_oneShot_next hk hi ht
    exact ⟨rfl, commandResponse i s, (exec_response ht).1, by rw [(exec_response hu).1, commandResponse_respond]⟩

end Sys2Proof.Machine
end

section
/-! PROOFS. The decoder and the encoder: each undoes the other, and a frame is complete only with its last byte
(30_encoding.md R72 to R79, R84). -/

namespace Sys2Proof

open Sys2Proof.Machine

/-! ### Operands at their places in a frame -/

/-- A slice that begins where one sequence ends and has the length of the next is the next. -/
theorem slice_append_middle (as bs cs : List Byte) :
    slice (as ++ bs ++ cs) as.length (as.length + bs.length) = bs := by
  simp [slice_eq_drop_take]

/-- The bytes of a packing are the bytes packed, where the width holds them all (20_memory.md R52 to R55). -/
theorem bytesLE_packLE {w : Nat} {bs : List Byte} (h : 8 * bs.length ≤ w) :
    bytesLE bs.length (packLE w bs) = bs := by
  apply List.ext_getElem (length_bytesLE _ _)
  intro i hi hb
  rw [getElem_bytesLE]
  apply BitVec.eq_of_getLsbD_eq
  intro j hj
  have hlt : 8 * i + j < w := by omega
  have hdiv : (8 * i + j) / 8 = i := by omega
  have hmod : (8 * i + j) % 8 = j := by omega
  rw [BitVec.getLsbD_extractLsb', getLsbD_packLE, hdiv, hmod, List.getD_eq_getElem _ _ hb]
  simp [hj, hlt]

/-- `bytesLE_packLE` for the bytes at positions a to b - 1 of a frame that has them. -/
theorem bytesLE_packLE_slice {w a b n : Nat} {bs : List Byte} (hn : b - a = n) (hb : b ≤ bs.length) (hw : 8 * n ≤ w) :
    bytesLE n (packLE w (slice bs a b)) = slice bs a b := by
  have hlen : (slice bs a b).length = n := by
    rw [length_slice]
    omega
  subst hlen
  exact bytesLE_packLE hw

theorem slice_append_slice (bs : List Byte) {a b c : Nat} (hab : a ≤ b) (hbc : b ≤ c) :
    slice bs a b ++ slice bs b c = slice bs a c := by
  rw [slice_eq_drop_take, slice_eq_drop_take, slice_eq_drop_take, show c - a = (b - a) + (c - b) by omega,
    List.take_add, List.drop_drop, Nat.add_sub_cancel' hab]

/-- Bytes are their first, the `n` after it, and those after these. -/
theorem cons_eq_slice_append_drop (op : Byte) (bs : List Byte) (n : Nat) :
    op :: bs = op :: slice (op :: bs) 1 (n + 1) ++ (op :: bs).drop (n + 1) := by
  simp [slice]

theorem operandK0_frame (op : Byte) (k0 k1 : Word) (rest : List Byte) :
    operandK0 (op :: (bytesLE 8 k0 ++ bytesLE 8 k1) ++ rest) = k0 := by
  have hslice := slice_append_middle [op] (bytesLE 8 k0) (bytesLE 8 k1 ++ rest)
  simp only [length_bytesLE, List.length_singleton] at hslice
  simp only [List.cons_append, List.nil_append, List.append_assoc] at hslice ⊢
  rw [operandK0, hslice]
  exact packLE_bytesLE k0 le_rfl

theorem operandK1_frame (op : Byte) (k0 k1 : Word) (rest : List Byte) :
    operandK1 (op :: (bytesLE 8 k0 ++ bytesLE 8 k1) ++ rest) = k1 := by
  have hslice := slice_append_middle (op :: bytesLE 8 k0) (bytesLE 8 k1) rest
  simp only [length_bytesLE, List.length_cons] at hslice
  simp only [List.cons_append] at hslice ⊢
  rw [operandK1, hslice]
  exact packLE_bytesLE k1 le_rfl

theorem operandN_frame (op : Byte) (n : BitVec 32) (tail : List Byte) :
    operandN (op :: (bytesLE 4 n ++ tail)) = n.toNat := by
  have hslice := slice_append_middle [op] (bytesLE 4 n) tail
  simp only [length_bytesLE, List.length_singleton, List.cons_append, List.nil_append] at hslice
  rw [operandN, hslice]
  exact congrArg BitVec.toNat (packLE_bytesLE n le_rfl)

/-! ### Decoding an encoded frame, format by format -/

theorem decodeFK_frame (cmd : Word → Word → Instr) (op : Byte) (k0 k1 : Word) (rest : List Byte) :
    decodeFK cmd (op :: (bytesLE 8 k0 ++ bytesLE 8 k1) ++ rest) = .frame (cmd k0 k1) rest := by
  have hlen : (op :: (bytesLE 8 k0 ++ bytesLE 8 k1)).length = 17 := by simp
  rw [decodeFK, if_neg (by rw [List.length_append]; omega), operandK0_frame, operandK1_frame,
    List.drop_left' hlen]

theorem decodeFL_frame (cmd : List Byte → Instr) (op : Byte) {data : List Byte} (rest : List Byte)
    (h : data.length < 2 ^ 32) :
    decodeFL cmd (op :: (bytesLE 4 (BitVec.ofNat 32 data.length) ++ data) ++ rest) = .frame (cmd data) rest := by
  set header := op :: bytesLE 4 (BitVec.ofNat 32 data.length) with hheader
  have hbytes : op :: (bytesLE 4 (BitVec.ofNat 32 data.length) ++ data) ++ rest = header ++ data ++ rest := by
    simp [hheader]
  have hheaderLen : header.length = 5 := by simp [hheader]
  have hn : operandN (header ++ data ++ rest) = data.length := by
    rw [hheader, List.append_assoc, List.cons_append, operandN_frame, BitVec.toNat_ofNat, Nat.mod_eq_of_lt h]
  have hdata : operandData (header ++ data ++ rest) = data := by
    rw [operandData, hn, ← hheaderLen]
    exact slice_append_middle header data rest
  have hlen : (header ++ data).length = 5 + data.length := by rw [List.length_append, hheaderLen]
  rw [hbytes, decodeFL, hn, hdata, if_neg (by rw [List.length_append]; omega),
    if_neg (by rw [List.length_append]; omega), List.drop_left' hlen]

theorem decodeFB_frame (cmd : Byte → Instr) (op b : Byte) (rest : List Byte) :
    decodeFB cmd (op :: b :: rest) = .frame (cmd b) rest := by
  simp [decodeFB, operandB]

/-- Settles O2, one command at a time by its format. -/
theorem decodeOfEncode : Obligations.DecodeOfEncode := by
  unfold Obligations.DecodeOfEncode
  intro i rest hw
  cases i with
  | loadkey k0 k1 => exact (decode_loadkey _).trans (decodeFK_frame .loadkey _ k0 k1 rest)
  | init => exact decode_init rest
  | update data => exact (decode_update _).trans (decodeFL_frame .update _ rest ((payloadFits_iff data).1 hw))
  | updateU8 b => exact (decode_updateU8 _).trans (decodeFB_frame .updateU8 _ b rest)
  | finish => exact decode_finish rest
  | digest data => exact (decode_digest _).trans (decodeFL_frame .digest _ rest ((payloadFits_iff data).1 hw))
  | digestU8 b => exact (decode_digestU8 _).trans (decodeFB_frame .digestU8 _ b rest)
  | illegal op => exact decode_illegal rest hw

/-! ### What the decoder accepts -/

/-- Bytes that decode as FK are the opcode byte, the two keys' bytes and the rest. -/
theorem decodeFK_eq_frame {cmd : Word → Word → Instr} {op : Byte} {bs rest : List Byte} {i : Instr}
    (h : decodeFK cmd (op :: bs) = .frame i rest) :
    ∃ k0 k1, i = cmd k0 k1 ∧ op :: bs = op :: (bytesLE 8 k0 ++ bytesLE 8 k1) ++ rest := by
  unfold decodeFK at h
  split at h
  · cases h
  next hlen =>
    cases h
    have h0 : bytesLE 8 (operandK0 (op :: bs)) = slice (op :: bs) 1 9 := bytesLE_packLE_slice rfl (by omega) le_rfl
    have h1 : bytesLE 8 (operandK1 (op :: bs)) = slice (op :: bs) 9 17 := bytesLE_packLE_slice rfl (by omega) le_rfl
    refine ⟨_, _, rfl, ?_⟩
    rw [h0, h1, slice_append_slice _ (by omega) (by omega)]
    exact cons_eq_slice_append_drop op bs 16

/-- Bytes that decode as FB are the opcode byte, the operand and the rest. -/
theorem decodeFB_eq_frame {cmd : Byte → Instr} {op : Byte} {bs rest : List Byte} {i : Instr}
    (h : decodeFB cmd (op :: bs) = .frame i rest) : ∃ b, i = cmd b ∧ op :: bs = op :: b :: rest := by
  cases bs with
  | nil => cases h
  | cons b bs =>
    rw [decodeFB_frame] at h
    cases h
    exact ⟨b, rfl, rfl⟩

/-- Bytes that decode as FL are the opcode byte, the length of the payload, the payload and the rest; the payload fits
the length field. -/
theorem decodeFL_eq_frame {cmd : List Byte → Instr} {op : Byte} {bs rest : List Byte} {i : Instr}
    (h : decodeFL cmd (op :: bs) = .frame i rest) :
    ∃ data, i = cmd data ∧ payloadFits data = true ∧
      op :: bs = op :: (bytesLE 4 (BitVec.ofNat 32 data.length) ++ data) ++ rest := by
  unfold decodeFL at h
  split at h
  · cases h
  next h5 =>
    split at h
    · cases h
    next hn =>
      cases h
      have hlen : (operandData (op :: bs)).length = operandN (op :: bs) := by
        rw [operandData, length_slice]
        omega
      have hcount : bytesLE 4 (BitVec.ofNat 32 (operandN (op :: bs))) = slice (op :: bs) 1 5 := by
        rw [operandN, BitVec.ofNat_toNat, BitVec.setWidth_eq]
        exact bytesLE_packLE_slice rfl (by omega) le_rfl
      refine ⟨_, rfl, ?_, ?_⟩
      · rw [payloadFits_iff, hlen]
        exact BitVec.isLt _
      · rw [hlen, hcount, operandData, slice_append_slice _ (by omega) (by omega),
          show 5 + operandN (op :: bs) = 4 + operandN (op :: bs) + 1 by omega]
        exact cons_eq_slice_append_drop op bs _

/-- Settles O3, by the opcode byte and then its format. -/
theorem decodeOnlyEncodedFrames : Obligations.DecodeOnlyEncodedFrames := by
  unfold Obligations.DecodeOnlyEncodedFrames
  intro bs i rest h
  cases bs with
  | nil => cases h
  | cons op bs =>
    rcases opcode_cases op with rfl | rfl | rfl | rfl | rfl | rfl | rfl | hill
    · rw [decode_loadkey] at h
      obtain ⟨k0, k1, rfl, hbs⟩ := decodeFK_eq_frame h
      exact ⟨rfl, hbs⟩
    · cases h
      exact ⟨rfl, rfl⟩
    · rw [decode_update] at h
      obtain ⟨data, rfl, hfits, hbs⟩ := decodeFL_eq_frame h
      exact ⟨hfits, hbs⟩
    · rw [decode_updateU8] at h
      obtain ⟨b, rfl, hbs⟩ := decodeFB_eq_frame h
      exact ⟨rfl, hbs⟩
    · cases h
      exact ⟨rfl, rfl⟩
    · rw [decode_digest] at h
      obtain ⟨data, rfl, hfits, hbs⟩ := decodeFL_eq_frame h
      exact ⟨hfits, hbs⟩
    · rw [decode_digestU8] at h
      obtain ⟨b, rfl, hbs⟩ := decodeFB_eq_frame h
      exact ⟨rfl, hbs⟩
    · rw [decode_illegal bs hill] at h
      cases h
      exact ⟨hill, rfl⟩

/-- A decoded frame is decoded the same whatever bytes come after: its own bytes decide (30_encoding.md R84). -/
theorem decode_append_of_frame {bs rest : List Byte} {i : Instr} (h : decode bs = .frame i rest) (more : List Byte) :
    decode (bs ++ more) = .frame i (rest ++ more) := by
  obtain ⟨hw, rfl⟩ := decodeOnlyEncodedFrames bs i rest h
  rw [List.append_assoc]
  exact decodeOfEncode i (rest ++ more) hw

/-- A whole frame and nothing after it. -/
theorem decode_encode {i : Instr} (h : i.wellFormed = true) : decode (encode i) = .frame i [] := by
  simpa using decodeOfEncode i [] h

/-- Settles O4: a frame in a proper beginning would leave the missing bytes, and the whole frame leaves none. -/
theorem frameBeginningNeedsMore : Obligations.FrameBeginningNeedsMore := by
  unfold Obligations.FrameBeginningNeedsMore
  intro i k hw hk
  cases hd : decode ((encode i).take k) with
  | needMore => rfl
  | frame j rest =>
    have hwhole := decode_append_of_frame hd ((encode i).drop k)
    rw [List.take_append_drop, decode_encode hw] at hwhole
    have hnone : rest ++ (encode i).drop k = [] := (Decoded.frame.inj hwhole).2.symm
    have hmissing := (List.append_eq_nil_iff.1 hnone).2
    exact absurd (List.drop_eq_nil_iff.1 hmissing) (by omega)

theorem length_encode (i : Instr) : (encode i).length = i.frameLength := by
  cases i with
  | loadkey k0 k1 => exact (Laws.FrameShape.loadkey k0 k1).2
  | init => rfl
  | update data => exact (Laws.FrameShape.update data).2
  | updateU8 b => rfl
  | finish => rfl
  | digest data => exact (Laws.FrameShape.digest data).2
  | digestU8 b => rfl
  | illegal op => rfl

/-- Settles O5: the bytes are the command's own frame and the rest. -/
theorem frameLengthByFormat : Obligations.FrameLengthByFormat := by
  unfold Obligations.FrameLengthByFormat
  intro bs i rest h
  obtain ⟨-, rfl⟩ := decodeOnlyEncodedFrames bs i rest h
  rw [List.length_append, length_encode, Nat.add_comm]
  rfl

/-- Settles O6: an illegal opcode byte is a frame, and a frame's first byte is its opcode. -/
theorem illegalOpcodesDecode : Obligations.IllegalOpcodesDecode := by
  unfold Obligations.IllegalOpcodesDecode
  intro op bs
  rw [← illegalOpcode_iff]
  refine ⟨decode_illegal bs, fun hlegal o rest hd => ?_⟩
  obtain ⟨hill, hbs⟩ := decodeOnlyEncodedFrames _ _ rest hd
  obtain ⟨rfl, -⟩ := List.cons.inj hbs
  exact hlegal hill

/-- Settles O1, by evaluating the decoder on the bytes written out. -/
theorem writtenFramesDecode : Obligations.WrittenFramesDecode := by
  unfold Obligations.WrittenFramesDecode
  decide

end Sys2Proof
end

section
/-! PROOFS. What a step does with the command bytes it is offered, and the length of every response
(30_encoding.md R81 to R84). -/

namespace Sys2Proof.Machine

/-! ### The step of an incomplete frame -/

/-- The block can take a byte: the step receives what is offered. -/
theorem step_of_send {s : State} {bytes : List Byte} {acts : List HostAct} (hh : s.host = .send bytes :: acts)
    (hb : bytes ≠ []) (hc : s.cmdReady = true) : step s = receive exec bytes acts s := by
  simp [step, hostAct, hh, hb, hc]

/-- The block can take a byte and the received bytes are no whole frame yet: they are kept (30_encoding.md R84). -/
theorem step_of_needMore {s : State} {bytes : List Byte} {acts : List HostAct} (hh : s.host = .send bytes :: acts)
    (hb : bytes ≠ []) (hc : s.cmdReady = true) (hd : decode (s.rx ++ bytes) = .needMore) :
    step s = .next { s with rx := s.rx ++ bytes, host := acts } := by
  rw [step_of_send hh hb hc, receive, hd]

/-- Receiving looks only at the bytes received so far and those offered, joined. -/
theorem receive_append (run : Instr → State → Host.Outcome State Fault Refusal) (a b : List Byte)
    (acts before : List HostAct) (s : State) :
    receive run b acts { s with rx := s.rx ++ a, host := before } = receive run (a ++ b) acts s := by
  simp only [receive, List.append_assoc]

/-- Settles O47: what the first step keeps is what the second joins the rest to. -/
theorem framePiecesJoin : Obligations.FramePiecesJoin := by
  unfold Obligations.FramePiecesJoin
  intro s t a b acts hh ha hb hc hd hstep
  rw [step_of_needMore hh ha hc hd] at hstep
  cases hstep
  have hjoined : step { s with host := .send (a ++ b) :: acts } = receive exec (a ++ b) acts s :=
    step_of_send rfl (List.append_ne_nil_of_left_ne_nil ha b) hc
  have hsecond := step_of_send (s := { s with rx := s.rx ++ a, host := .send b :: acts }) rfl hb hc
  rw [hjoined, hsecond, receive_append]

/-- With nothing more to come within a frame, the block waits for the rest (70_reset_and_hazards.md R237). -/
theorem step_of_partial {s : State} (hh : s.host = []) (hc : s.cmdReady = true) (hrx : s.rx ≠ []) :
    step s = .fault .frameIncomplete := by
  obtain ⟨hrst, hf, htx⟩ := (cmdReady_iff s).1 hc
  simp [step, hostAct, hh, waitForHost, nextRst, waitReason, hrst, hf, htx, hrx]

/-- Settles O46, by `step_of_needMore`; the kept bytes make BUSY 1. -/
theorem incompleteFrameIsKept : Obligations.IncompleteFrameIsKept := by
  unfold Obligations.IncompleteFrameIsKept
  intro s bytes acts hh hb hc hd
  have hrx : s.rx ++ bytes ≠ [] := List.append_ne_nil_of_right_ne_nil _ hb
  refine ⟨_, step_of_needMore hh hb hc hd, rfl, ?busy, fun hnil => step_of_partial hnil hc hrx⟩
  case busy =>
    rw [status_busy]
    simp [State.busy, hb]

/-! ### The whole frame -/

/-- No command touches the receiver or the host's acts. -/
theorem exec_receiver {i : Instr} {s t : State} (h : exec i s = .next t) : t.rx = s.rx ∧ t.host = s.host := by
  rcases exec_next_cases h with ⟨c, -, -, rfl⟩ | ⟨k0, k1, -, rfl⟩ | ⟨-, -, rfl⟩ | ⟨bs, -, -, rfl⟩ | ⟨-, -, rfl⟩ |
    ⟨bs, -, -, rfl⟩
  all_goals exact ⟨rfl, rfl⟩

theorem encode_ne_nil (i : Instr) : encode i ≠ [] := List.cons_ne_nil _ _

/-- Settles O48: a proper beginning of the frame is no frame, and the whole one decodes to its command. -/
theorem wholeFrameBeforeCheck : Obligations.WholeFrameBeforeCheck := by
  unfold Obligations.WholeFrameBeforeCheck
  intro s i acts hw _ hc hrx
  refine ⟨?beginning, ?whole⟩
  case beginning =>
    intro k hpos hk hh
    have hb : (encode i).take k ≠ [] := by simp [List.take_eq_nil_iff, encode_ne_nil, hpos.ne']
    have hd := frameBeginningNeedsMore i k hw hk
    have hstep := step_of_needMore hh hb hc (by rw [hrx]; exact hd)
    rwa [hrx] at hstep
  case whole =>
    intro hh
    have hstep : step s = exec i { s with rx := [], host := acts } :=
      step_of_frame hh (encode_ne_nil i) hc (by rw [hrx]; exact decode_encode hw)
    have hs : ({ s with rx := [], host := acts } : State) = { s with host := acts } := by rw [← hrx]
    rw [hs] at hstep
    obtain ⟨t, he, -⟩ := exec_cases i { s with host := acts }
    obtain ⟨htrx, hthost⟩ := exec_receiver he
    exact ⟨t, hstep.trans he, he, htrx.trans hrx, hthost⟩

/-- Settles O49, case by case over what a step can do: an act that takes no bytes drops none. -/
theorem bytesTakenOnlyWhenReady : Obligations.BytesTakenOnlyWhenReady := by
  unfold Obligations.BytesTakenOnlyWhenReady
  intro s t hstep hne
  rw [← cmdReady_iff]
  rcases step_cases hstep with ⟨level, acts, hr, -, rfl⟩ | ⟨acts, hh, -, rfl⟩ | ⟨acts, hsame, rfl⟩ |
    ⟨bytes, acts, -, -, hc, -⟩ | ⟨bytes, acts, i, left, -, -, hc, -⟩
  · exact absurd (offeredBytes_of_nextRst hr) hne
  · exact absurd (by simp [hh, offeredBytes]) hne
  · exact absurd hsame hne
  · exact hc
  · exact hc

/-! ### The responses -/

/-- Settles O52: the response of `exec` is `commandResponse`, whose two branches are the two kinds of response. -/
theorem responseLengths : Obligations.ResponseLengths := by
  unfold Obligations.ResponseLengths
  intro i s
  obtain ⟨t, he, -⟩ := exec_cases i s
  refine ⟨t, commandResponse i s, he, (exec_response he).1, ?passing, ?failing, ?illegal⟩
  case passing =>
    intro hp
    unfold commandResponse
    rw [if_pos hp]
    cases i with
    | illegal op => cases hp
    | _ => simp
  case failing =>
    intro hp
    obtain ⟨c, hc, -⟩ := exec_of_failing hp
    exact ⟨c, hc, by simp [commandResponse, hp, hc]⟩
  case illegal =>
    rintro op rfl
    rfl

end Sys2Proof.Machine
end

section
/-! PROOFS. Absorbing in pieces is absorbing the whole, for the engine and for a list of commands
(41_absorption.md R121, R127; 42_finalization.md R147). -/

namespace Sys2Proof.Machine

/-! ### Absorb and appended bytes -/

theorem le64_append (as bs : List Byte) : le64 (as ++ bs) = le64 as ||| (le64 bs <<< (8 * as.length)) :=
  packLE_append 64 as bs

theorem take_append_of_length_le {a : List Byte} (b : List Byte) {n : Nat} (h : a.length ≤ n) :
    (a ++ b).take n = a ++ b.take (n - a.length) := by
  rw [List.take_append, List.take_of_length_le h]

theorem drop_append_of_length_le {a : List Byte} (b : List Byte) {n : Nat} (h : a.length ≤ n) :
    (a ++ b).drop n = b.drop (n - a.length) := by
  rw [List.drop_append, List.drop_eq_nil_of_le h, List.nil_append]

/-- NTAIL holds every count below 8 (10_state.md R26). -/
theorem toNat_ofNat_ntail {n : Nat} (h : n < 8) : (BitVec.ofNat 3 n).toNat = n := by
  rw [BitVec.toNat_ofNat]
  omega

/-- Absorbing after steps 3 and 4 of Absorb goes on where they stopped: the bytes left over and the new ones are one
remainder. -/
theorem absorb_absorbFull (e : Engine) (a b : List Byte) :
    absorb (absorbFull e a) b = absorbFull { e with length := e.length + BitVec.ofNat 64 b.length } (a ++ b) := by
  by_cases h8 : 8 ≤ a.length
  · rw [absorbFull_block e h8, absorb_absorbFull _ (a.drop 8) b, absorbFull_block _ (bs := a ++ b) (by simp; omega),
      List.take_append_of_le_length h8, List.drop_append_of_le_length h8]
  · have hcount := toNat_ofNat_ntail (Nat.lt_of_not_le h8)
    rw [absorbFull_short e (by omega)]
    rcases Nat.eq_zero_or_pos a.length with h0 | hpos
    · obtain rfl := List.eq_nil_of_length_eq_zero h0
      rw [absorb_of_empty_tail b hcount, List.nil_append]
      rfl
    · rcases Nat.lt_or_ge (a.length + b.length) 8 with hs | hs
      · rw [absorb_of_short (by rwa [hcount]) (by rwa [hcount]), absorbFull_short _ (by simpa using hs),
          Engine.tailWith, hcount, ← le64_append, List.length_append]
      · rw [absorb_of_completion (by rwa [hcount]) (by rwa [hcount]),
          absorbFull_block _ (bs := a ++ b) (by simpa using hs), Engine.tailWith, hcount,
          take_append_of_length_le b (by omega), drop_append_of_length_le b (by omega), le64_append]
        rfl
termination_by a.length

/-- Bytes ORed in above TAIL in two goes, with NTAIL counted up in between. -/
theorem tailWith_append (e : Engine) {a : List Byte} (b : List Byte) (l : Word) (h : e.ntail.toNat + a.length < 8) :
    Engine.tailWith { e with length := l, tail := e.tailWith a, ntail := BitVec.ofNat 3 (e.ntail.toNat + a.length) } b =
      e.tailWith (a ++ b) := by
  rw [Engine.tailWith, toNat_ofNat_ntail h, Engine.tailWith, Engine.tailWith, le64_append, BitVec.shiftLeft_or_distrib,
    BitVec.or_assoc, ← BitVec.shiftLeft_add, Nat.mul_add, Nat.add_comm (8 * a.length)]

/-- Absorbing `a` and then `b` is absorbing `a ++ b`, in every engine record (41_absorption.md R127). -/
theorem absorb_append (e : Engine) (a b : List Byte) : absorb (absorb e a) b = absorb e (a ++ b) := by
  have hlen : e.length + BitVec.ofNat 64 a.length + BitVec.ofNat 64 b.length
      = e.length + BitVec.ofNat 64 (a ++ b).length := by
    rw [List.length_append, BitVec.ofNat_add, BitVec.add_assoc]
  rcases Nat.eq_zero_or_pos e.ntail.toNat with h0 | hpos
  · rw [absorb_of_empty_tail a h0, absorb_absorbFull, absorb_of_empty_tail _ h0, hlen]
  · rcases Nat.lt_or_ge (e.ntail.toNat + a.length) 8 with ha | ha
    · have hcount := toNat_ofNat_ntail ha
      rw [absorb_of_short hpos ha]
      rcases Nat.lt_or_ge (e.ntail.toNat + a.length + b.length) 8 with hb | hb
      · rw [absorb_of_short (by rw [hcount]; omega) (by rwa [hcount]), absorb_of_short hpos (by simp; omega), hlen,
          tailWith_append e b _ ha, hcount, List.length_append, Nat.add_assoc]
      · rw [absorb_of_completion (by rw [hcount]; omega) (by rwa [hcount]), absorb_of_completion hpos (by simp; omega),
          hlen, tailWith_append e _ _ ha, hcount, take_append_of_length_le b (by omega),
          drop_append_of_length_le b (by omega), Nat.sub_add_eq]
        rfl
    · rw [absorb_of_completion hpos ha, absorb_absorbFull, absorb_of_completion hpos (by simp; omega), hlen,
        List.take_append_of_le_length (by omega), List.drop_append_of_le_length (by omega)]

/-- Absorbing chunk after chunk is absorbing all of them joined, where something has been absorbed before. -/
theorem foldl_absorb (e : Engine) (a : List Byte) (chunks : List (List Byte)) :
    chunks.foldl absorb (absorb e a) = absorb e (a ++ chunks.flatten) := by
  induction chunks generalizing a with
  | nil => simp
  | cons c cs ih => rw [List.foldl_cons, absorb_append, ih, List.flatten_cons, List.append_assoc]

/-- INIT leaves nothing that absorbing no bytes would change. -/
theorem absorb_keyInit_nil (k0 k1 : Word) : absorb (keyInit k0 k1) [] = keyInit k0 k1 := rfl

theorem foldl_absorb_keyInit (k0 k1 : Word) (chunks : List (List Byte)) :
    chunks.foldl absorb (keyInit k0 k1) = absorb (keyInit k0 k1) chunks.flatten := by
  have h := foldl_absorb (keyInit k0 k1) [] chunks
  rwa [absorb_keyInit_nil, List.nil_append] at h

theorem foldl_absorb_of_ne_nil (e : Engine) {chunks : List (List Byte)} (h : chunks ≠ []) :
    chunks.foldl absorb e = absorb e chunks.flatten := by
  cases chunks with
  | nil => exact absurd rfl h
  | cons c cs => exact foldl_absorb e c cs

/-! ### Lists of commands -/

theorem runCommands_cons {i : Instr} {s t : State} (is : List Instr) (h : exec i s = .next t) :
    runCommands (i :: is) s = runCommands is t := by
  rw [runCommands, h]

theorem runCommands_append {is : List Instr} {s t : State} (js : List Instr) (h : runCommands is s = .next t) :
    runCommands (is ++ js) s = runCommands js t := by
  induction is generalizing s with
  | nil =>
    cases h
    rfl
  | cons i is ih =>
    obtain ⟨u, hu, -⟩ := exec_cases i s
    rw [runCommands_cons is hu] at h
    rw [List.cons_append, runCommands_cons _ hu, ih h]

/-- UPDATE and UPDATE_U8 commands in ACTIVE: one OK each, and the engine absorbs their payloads in order. -/
theorem runCommands_absorbed {s : State} {is : List Instr} {chunks : List (List Byte)} (ha : s.engState = .active)
    (h : is.map Instr.absorbed? = chunks.map some) :
    runCommands is s =
      .next (respond (List.replicate is.length okByte) { s with eng := chunks.foldl absorb s.eng }) := by
  induction is generalizing s chunks with
  | nil =>
    obtain rfl := List.map_eq_nil_iff.1 h.symm
    simp [runCommands, respond]
  | cons i is ih =>
    cases chunks with
    | nil => cases h
    | cons c cs =>
      obtain ⟨hi, his⟩ := List.cons.inj h
      set t := respond [okByte] { s with eng := absorb s.eng c } with ht
      have hrest := ih (s := t) ha his
      rw [runCommands_cons is (exec_of_absorbed hi ha), hrest, ht]
      simp [respond, List.replicate_succ]

/-- INIT with keys, UPDATE and UPDATE_U8 commands, and FINISH: one OK each, and at last the digest of all payloads
(42_finalization.md R147). -/
theorem runCommands_digest {s : State} {is : List Instr} {chunks : List (List Byte)} (hk : s.keysValid = true)
    (h : is.map Instr.absorbed? = chunks.map some) :
    ∃ t, runCommands (.init :: is ++ [.finish]) s = .next t ∧ t.engState = .idle ∧
      t.tx = s.tx ++ List.replicate (1 + is.length) okByte ++ digestResponse (sipHash24 s.k0 s.k1 chunks.flatten) := by
  set t := respond [okByte] { s with eng := keyInit s.k0 s.k1, engState := .active } with ht
  set u := respond (List.replicate is.length okByte) { t with eng := chunks.foldl absorb t.eng } with hu
  have hinit : exec .init s = .next t := execInit_of_valid hk
  have habsorb : runCommands is t = .next u := runCommands_absorbed rfl h
  have hfinish : exec .finish u = .next (respond (digestResponse (finalize u.eng)) (consumeEngine u)) :=
    execFinish_of_active (s := u) rfl
  have hdigest : finalize u.eng = sipHash24 s.k0 s.k1 chunks.flatten :=
    congrArg finalize (foldl_absorb_keyInit s.k0 s.k1 chunks)
  refine ⟨respond (digestResponse (finalize u.eng)) (consumeEngine u), ?run, rfl, ?response⟩
  case run =>
    rw [List.cons_append, runCommands_cons _ hinit, runCommands_append _ habsorb, runCommands_cons _ hfinish]
    rfl
  case response =>
    rw [respond_tx, consumeEngine_tx, hdigest, hu, respond_tx, ht, respond_tx, List.replicate_add]
    simp

end Sys2Proof.Machine
end

section
/-! PROOFS. The pseudo-instruction UPDATE_LONG (30_encoding.md R88). -/

namespace Sys2Proof.Machine

/-! ### The pieces -/

theorem pieces_of_short {size : Nat} {bs : List Byte} (fuel : Nat) (h : bs.length ≤ size) :
    pieces size fuel bs = [bs] := by
  cases fuel with
  | zero => rfl
  | succ fuel => rw [pieces, if_pos h]

theorem pieces_of_long {size : Nat} {bs : List Byte} (fuel : Nat) (h : size < bs.length) :
    pieces size (fuel + 1) bs = bs.take size :: pieces size fuel (bs.drop size) := by
  rw [pieces, if_neg (by omega)]

theorem pieces_ne_nil (size fuel : Nat) (bs : List Byte) : pieces size fuel bs ≠ [] := by
  cases fuel with
  | zero => exact List.cons_ne_nil _ _
  | succ fuel =>
    rw [pieces]
    split <;> exact List.cons_ne_nil _ _

theorem flatten_pieces (size fuel : Nat) (bs : List Byte) : (pieces size fuel bs).flatten = bs := by
  induction fuel generalizing bs with
  | zero => exact List.append_nil bs
  | succ fuel ih =>
    rcases Nat.lt_or_ge size bs.length with h | h
    · rw [pieces_of_long fuel h, List.flatten_cons, ih, List.take_append_drop]
    · rw [pieces_of_short _ h]
      exact List.append_nil bs

/-- What the pieces of `bs` are, said of every size and enough fuel: all but the last have `size` bytes, and none has
more. -/
theorem pieces_lengths {size fuel : Nat} {bs : List Byte} (hsize : 0 < size) (hfuel : bs.length ≤ fuel) :
    (∀ p ∈ (pieces size fuel bs).dropLast, p.length = size) ∧ ∀ p ∈ pieces size fuel bs, p.length ≤ size := by
  induction fuel generalizing bs with
  | zero =>
    have hle : bs.length ≤ size := by omega
    rw [pieces_of_short _ hle]
    simpa using hle
  | succ fuel ih =>
    rcases Nat.lt_or_ge size bs.length with h | h
    · obtain ⟨hfull, hle⟩ := ih (bs := bs.drop size) (by rw [List.length_drop]; omega)
      have htake : (bs.take size).length = size := by rw [List.length_take]; omega
      rw [pieces_of_long fuel h, List.dropLast_cons_of_ne_nil (pieces_ne_nil _ _ _), List.forall_mem_cons,
        List.forall_mem_cons]
      exact ⟨⟨htake, hfull⟩, htake.le, hle⟩
    · rw [pieces_of_short _ h]
      simpa using h

/-- There are as many pieces as the length divided by the size, rounded up, and one for no bytes. -/
theorem length_pieces {size fuel : Nat} {bs : List Byte} (hsize : 0 < size) (hfuel : bs.length ≤ fuel) :
    (pieces size fuel bs).length = if bs = [] then 1 else (bs.length + (size - 1)) / size := by
  have hshort {cs : List Byte} (f : Nat) (hcs : cs.length ≤ size) :
      (pieces size f cs).length = if cs = [] then 1 else (cs.length + (size - 1)) / size := by
    rw [pieces_of_short f hcs]
    split
    · rfl
    next hne =>
      have hpos := List.length_pos_iff.2 hne
      rw [List.length_singleton, Nat.div_eq_of_lt_le] <;> omega
  induction fuel generalizing bs with
  | zero => exact hshort _ (by omega)
  | succ fuel ih =>
    rcases Nat.lt_or_ge size bs.length with h | h
    · have hne : bs ≠ [] := List.ne_nil_of_length_pos (by omega)
      have hdrop : bs.drop size ≠ [] := by rw [Ne, List.drop_eq_nil_iff]; omega
      rw [pieces_of_long fuel h, List.length_cons, ih (by rw [List.length_drop]; omega), if_neg hne, if_neg hdrop,
        List.length_drop, ← Nat.add_div_right _ hsize]
      congr 1
      omega
    · exact hshort _ h

/-! ### The expansion -/

theorem updateLong_wellFormed (bs : List Byte) : ∀ i ∈ updateLong bs, i.wellFormed = true := by
  intro i hi
  obtain ⟨p, hp, rfl⟩ := List.mem_map.1 hi
  exact decide_eq_true ((pieces_lengths (by decide) le_rfl).2 p hp)

theorem updateLong_absorbed (bs : List Byte) :
    (updateLong bs).map Instr.absorbed? = (pieces Config.maxPayload bs.length bs).map some := by
  rw [updateLong, List.map_map]
  rfl

/-- Settles O56: the pieces of a payload, and the commands that absorb them. -/
theorem updateLongExpansion : Obligations.UpdateLongExpansion := by
  unfold Obligations.UpdateLongExpansion
  refine ⟨?payloads, ?engine, ?digest, rfl⟩
  case payloads =>
    intro bs
    exact ⟨pieces Config.maxPayload bs.length bs, rfl, length_pieces (by decide) le_rfl, flatten_pieces _ _ bs,
      (pieces_lengths (by decide) le_rfl).1, updateLong_wellFormed bs⟩
  case engine =>
    intro bs s ha
    refine ⟨_, runCommands_absorbed ha (updateLong_absorbed bs), ha, ?_⟩
    rw [respond_eng, foldl_absorb_of_ne_nil s.eng (pieces_ne_nil _ _ _), flatten_pieces]
  case digest =>
    intro bs s hk
    obtain ⟨t, hrun, hidle, htx⟩ := runCommands_digest hk (updateLong_absorbed bs)
    rw [flatten_pieces] at htx
    exact ⟨t, hrun, hidle, htx⟩

end Sys2Proof.Machine
end

section
/-! PROOFS. What the assembler accepts and rejects, and the bytes of a program text (30_encoding.md R87, R88). -/

namespace Sys2Proof.Machine

/-! ### Literals and payloads -/

theorem keyLiteral_of_lt {n : Nat} (h : n < 2 ^ 64) : keyLiteral n = some (BitVec.ofNat 64 n) := if_pos h

theorem keyLiteral_of_ge {n : Nat} (h : 2 ^ 64 ≤ n) : keyLiteral n = none := if_neg (Nat.not_lt.2 h)

theorem byteLiteral_of_le {n : Nat} (h : n ≤ 0xff) : byteLiteral n = some (BitVec.ofNat 8 n) := if_pos h

theorem byteLiteral_of_gt {n : Nat} (h : 0xff < n) : byteLiteral n = none := if_neg (Nat.not_le.2 h)

theorem framePayload_of_fits {data : List Nat} (hbytes : ∀ b ∈ data, b ≤ 0xff) (hlen : data.length ≤ 2 ^ 32 - 1) :
    framePayload data = some (data.map (BitVec.ofNat 8)) := by
  have hfits : payloadFits (data.map (BitVec.ofNat 8)) = true := decide_eq_true (by rwa [List.length_map])
  rw [framePayload, mapM_byteLiteral hbytes, Option.bind_some, if_pos hfits]

theorem framePayload_of_long {data : List Nat} (hbytes : ∀ b ∈ data, b ≤ 0xff) (hlen : 2 ^ 32 - 1 < data.length) :
    framePayload data = none := by
  have hfits : ¬ payloadFits (data.map (BitVec.ofNat 8)) = true := by
    rw [payloadFits_iff, List.length_map]
    omega
  rw [framePayload, mapM_byteLiteral hbytes, Option.bind_some, if_neg hfits]

theorem framePayload_of_bad_byte {data : List Nat} (h : ∃ b ∈ data, 0xff < b) : framePayload data = none := by
  rw [framePayload, mapM_byteLiteral_none h, Option.bind_none]

/-- A payload that the assembler accepts fits the length field. -/
theorem payloadFits_of_framePayload {data : List Nat} {bs : List Byte} (h : framePayload data = some bs) :
    payloadFits bs = true := by
  obtain ⟨cs, -, hcs⟩ := Option.bind_eq_some_iff.1 h
  split at hcs
  next hfits =>
    cases hcs
    exact hfits
  · cases hcs

/-! ### Each line's commands -/

theorem assemble_loadkey (k0 k1 : Nat) :
    assemble (.loadkey k0 k1) =
      if k0 < 2 ^ 64 ∧ k1 < 2 ^ 64 then some [.loadkey (BitVec.ofNat 64 k0) (BitVec.ofNat 64 k1)] else none := by
  rw [assemble]
  rcases Nat.lt_or_ge k0 (2 ^ 64) with h0 | h0
  · rcases Nat.lt_or_ge k1 (2 ^ 64) with h1 | h1
    · rw [keyLiteral_of_lt h0, keyLiteral_of_lt h1, if_pos ⟨h0, h1⟩]
      rfl
    · rw [keyLiteral_of_lt h0, keyLiteral_of_ge h1, if_neg (by omega)]
      rfl
  · rw [keyLiteral_of_ge h0, if_neg (by omega)]
    rfl

/-- The line of a byte command, UPDATE_U8 or DIGEST_U8. -/
theorem map_byteLiteral (cmd : Byte → Instr) (b : Nat) :
    (byteLiteral b).map (fun b => [cmd b]) = if b ≤ 0xff then some [cmd (BitVec.ofNat 8 b)] else none := by
  rcases Nat.lt_or_ge 0xff b with h | h
  · rw [byteLiteral_of_gt h, if_neg (by omega)]
    rfl
  · rw [byteLiteral_of_le h, if_pos h]
    rfl

/-- A line that stands for one command made from an operand: the operands accepted make it well-formed. -/
theorem wellFormed_of_map_singleton {α : Type} {o : Option α} {cmd : α → Instr} {is : List Instr}
    (h : o.map (fun a => [cmd a]) = some is) (hw : ∀ a, o = some a → (cmd a).wellFormed = true) :
    ∀ i ∈ is, i.wellFormed = true := by
  obtain ⟨a, ha, rfl⟩ := Option.map_eq_some_iff.1 h
  rw [List.forall_mem_singleton]
  exact hw a ha

theorem assemble_wellFormed {l : AsmLine} {is : List Instr} (h : assemble l = some is) :
    ∀ i ∈ is, i.wellFormed = true := by
  cases l with
  | loadkey k0 k1 =>
    obtain ⟨w0, -, h1⟩ := Option.bind_eq_some_iff.1 h
    exact wellFormed_of_map_singleton h1 fun _ _ => rfl
  | update data => exact wellFormed_of_map_singleton h fun _ => payloadFits_of_framePayload
  | updateU8 b => exact wellFormed_of_map_singleton h fun _ _ => rfl
  | digest data => exact wellFormed_of_map_singleton h fun _ => payloadFits_of_framePayload
  | digestU8 b => exact wellFormed_of_map_singleton h fun _ _ => rfl
  | updateLong data =>
    obtain ⟨bs, -, rfl⟩ := Option.map_eq_some_iff.1 h
    exact updateLong_wellFormed bs
  | init =>
    cases h
    decide
  | finish =>
    cases h
    decide
  | defaultKey =>
    cases h
    decide

/-- A line that the assembler accepts stands for no command, or for those of what it parses to. -/
theorem assembleLine_wellFormed {line : String} {is : List Instr} (h : assembleLine line = some is) :
    ∀ i ∈ is, i.wellFormed = true := by
  unfold assembleLine at h
  split at h
  · cases h
    exact List.forall_mem_nil _
  · obtain ⟨l, -, hl⟩ := Option.bind_eq_some_iff.1 h
    exact assemble_wellFormed hl
  · cases h

/-! ### A program's bytes -/

theorem mapM_eq_some_of_map_eq {α β : Type} {f : α → Option β} {xs : List α} {ys : List β}
    (h : xs.map f = ys.map some) : xs.mapM f = some ys := by
  induction xs generalizing ys with
  | nil =>
    obtain rfl := List.map_eq_nil_iff.1 h.symm
    rfl
  | cons x xs ih =>
    cases ys with
    | nil => cases h
    | cons y ys =>
      obtain ⟨hx, hxs⟩ := List.cons.inj h
      rw [List.mapM_cons, hx, ih hxs]
      rfl

theorem mapM_eq_none_of_mem {α β : Type} {f : α → Option β} {xs : List α} {x : α} (hx : x ∈ xs) (h : f x = none) :
    xs.mapM f = none := by
  induction xs with
  | nil => cases hx
  | cons y ys ih =>
    rw [List.mapM_cons]
    rcases List.mem_cons.1 hx with rfl | hmem
    · rw [h]
      rfl
    · rw [ih hmem]
      cases f y <;> rfl

/-- In the frames of a list of commands each command decodes at its own place (30_encoding.md R84). -/
theorem decode_flatMap_encode (pre post : List Instr) {i : Instr} (h : i.wellFormed = true) :
    decode (((pre ++ i :: post).flatMap encode).drop (pre.flatMap encode).length) =
      .frame i (post.flatMap encode) := by
  rw [List.flatMap_append, List.drop_left, List.flatMap_cons]
  exact decodeOfEncode i _ h

/-- Settles O57, clause by clause. -/
theorem assemblerAcceptsWellFormed : Obligations.AssemblerAcceptsWellFormed := by
  unfold Obligations.AssemblerAcceptsWellFormed
  refine ⟨assemble_loadkey, ⟨rfl, rfl, rfl⟩, fun b => ⟨map_byteLiteral .updateU8 b, map_byteLiteral .digestU8 b⟩,
    ?payload, ?badByte, fun _ _ => assemble_wellFormed, ?program, ?rejected⟩
  case payload =>
    intro data hbytes
    refine ⟨?_, fun hlen => ⟨?_, ?_⟩, fun hlen => ⟨?_, ?_⟩⟩
    · rw [assemble, mapM_byteLiteral hbytes, Option.map_some]
    · rw [assemble, framePayload_of_fits hbytes hlen, Option.map_some]
    · rw [assemble, framePayload_of_fits hbytes hlen, Option.map_some]
    · rw [assemble, framePayload_of_long hbytes hlen, Option.map_none]
    · rw [assemble, framePayload_of_long hbytes hlen, Option.map_none]
  case badByte =>
    intro data hbad
    refine ⟨?_, ?_, ?_⟩
    · rw [assemble, framePayload_of_bad_byte hbad, Option.map_none]
    · rw [assemble, framePayload_of_bad_byte hbad, Option.map_none]
    · rw [assemble, mapM_byteLiteral_none hbad, Option.map_none]
  case program =>
    intro lines iss hlines
    have hbytes : assembleProgram lines = some (iss.flatten.flatMap encode) := by
      rw [assembleProgram, mapM_eq_some_of_map_eq hlines, Option.map_some]
    refine ⟨_, hbytes, rfl, fun pre i post hsplit => ?_⟩
    have hmem : i ∈ iss.flatten := by simp [hsplit]
    obtain ⟨is, his, hi⟩ := List.mem_flatten.1 hmem
    have hline : some is ∈ lines.map assembleLine := by
      rw [hlines]
      exact List.mem_map_of_mem his
    obtain ⟨line, -, hl⟩ := List.mem_map.1 hline
    rw [hsplit]
    exact decode_flatMap_encode pre post (assembleLine_wellFormed hl i hi)
  case rejected =>
    intro lines line hmem hnone
    rw [assembleProgram, mapM_eq_none_of_mem hmem hnone, Option.map_none]

end Sys2Proof.Machine
end

section
/-! PROOFS. The assembler reads the text of every command (30_encoding.md R87, R88; log entry 16). -/

namespace Sys2Proof.Machine

/-! ### Tokens -/

theorem flushWord_reverse {w : List Char} (h : w ≠ []) : flushWord w.reverse = [.word w] := by
  simp [flushWord, h]

/-- A word ends where the line does, or at a character that stands in no word. -/
theorem tokens_flush (acc : List Char) {cs : List Char} (h : ∀ c ∈ cs.head?, ¬ WordChar c) :
    tokens acc cs = flushWord acc ++ tokens [] cs := by
  cases cs with
  | nil => simp [tokens, flushWord]
  | cons c cs =>
    have hc : ¬ WordChar c := h c rfl
    have hnil : flushWord [] = [] := rfl
    simp only [tokens, hnil, List.nil_append]
    split_ifs with h1 h2 h3 h4 h5
    · exact (List.append_nil _).symm
    · rfl
    · rfl
    · rfl
    · rfl
    · exact absurd ⟨h1, fun he => h2 (by simp [he]), fun he => h2 (by simp [he]), h3, h4, h5⟩ hc

/-- A word, and then what begins with no further character of it. -/
theorem tokens_word_append {w cs : List Char} (hne : w ≠ []) (hw : ∀ c ∈ w, WordChar c)
    (h : ∀ c ∈ cs.head?, ¬ WordChar c) : tokens [] (w ++ cs) = .word w :: tokens [] cs := by
  rw [tokens_word hw, List.append_nil, tokens_flush _ h, flushWord_reverse hne]
  rfl

theorem tokens_word_end {w : List Char} (hne : w ≠ []) (hw : ∀ c ∈ w, WordChar c) : tokens [] w = [.word w] := by
  have h := tokens_word_append (cs := []) hne hw (by simp)
  rwa [List.append_nil] at h

theorem not_wordChar_separators : ∀ c ∈ [';', ' ', '\t', ',', '[', ']'], ¬ WordChar c := by
  simp [WordChar]

theorem wordChar_of_mnemonic : ∀ m ∈ mnemonics, m.toList ≠ [] ∧ ∀ c ∈ m.toList, WordChar c := by
  simp [mnemonics, WordChar]

/-- A mnemonic and a space. -/
theorem tokens_mnemonic {m : String} (hm : m ∈ mnemonics) (cs : List Char) :
    tokens [] (m.toList ++ ' ' :: cs) = .word m.toList :: tokens [] cs := by
  obtain ⟨hne, hw⟩ := wordChar_of_mnemonic m hm
  rw [tokens_word_append hne hw (by simp [not_wordChar_separators])]
  rfl

/-- A semicolon starts a comment (30_encoding.md R87). -/
theorem tokens_comment {text : List Char} (h : ';' ∉ text) (acc comment : List Char) :
    tokens acc (text ++ ';' :: comment) = tokens acc text := by
  induction text generalizing acc with
  | nil => rfl
  | cons c cs ih =>
    have hcs : ';' ∉ cs := fun hc => h (List.mem_cons_of_mem c hc)
    rw [List.cons_append, tokens, tokens]
    simp only [ih hcs]

/-! ### Hexadecimal text -/

theorem length_hexText (n v : Nat) : (hexText n v).length = n := by
  induction n generalizing v with
  | zero => rfl
  | succ n ih => rw [hexText, List.length_append, ih, List.length_singleton]

theorem hexText_ne_nil (n v : Nat) : hexText (n + 1) v ≠ [] := List.ne_nil_of_length_eq_add_one (length_hexText _ v)

theorem wordChar_hexText (n v : Nat) : ∀ c ∈ hexText n v, WordChar c := by
  induction n generalizing v with
  | zero => exact List.forall_mem_nil _
  | succ n ih =>
    rw [hexText]
    intro c hc
    rcases List.mem_append.1 hc with hc | hc
    · exact ih _ c hc
    · rw [List.mem_singleton.1 hc]
      exact wordChar_hexChar _ (Nat.mod_lt v (by decide))

/-- One digit more: the numeral read so far moves up one place. -/
theorem numeral_append_hexChar {cs : List Char} {n d : Nat} (h : numeral 16 cs = some n) (hd : d < 16) :
    numeral 16 (cs ++ [hexChar d]) = some (16 * n + d) := by
  unfold numeral at h ⊢
  split at h
  · cases h
  · rw [if_neg (by simp), List.foldl_append, h]
    simp [digitValue_hexChar d hd, hd]

theorem numeral_hexChar {d : Nat} (hd : d < 16) : numeral 16 [hexChar d] = some d := by
  simp [numeral, digitValue_hexChar d hd, hd]

/-- Hexadecimal text reads back as the value it was made from, as far as its digits go. -/
theorem numeral_hexText (n v : Nat) : numeral 16 (hexText (n + 1) v) = some (v % 16 ^ (n + 1)) := by
  have hdigit : v % 16 < 16 := Nat.mod_lt v (by decide)
  induction n generalizing v with
  | zero => exact numeral_hexChar hdigit
  | succ n ih =>
    rw [hexText, numeral_append_hexChar (ih _ (Nat.mod_lt _ (by decide))) hdigit, Nat.pow_succ' (n := n + 1),
      Nat.mod_mul, Nat.add_comm]

theorem literal_hexText {n v : Nat} (h : v < 16 ^ (n + 1)) : literal ('0' :: 'x' :: hexText (n + 1) v) = some v := by
  have hread := numeral_hexText n v
  rwa [Nat.mod_eq_of_lt h] at hread

/-- The characters of a hexadecimal literal, the leading 0x included. -/
theorem wordChar_literal (n v : Nat) : ∀ c ∈ '0' :: 'x' :: hexText n v, WordChar c := by
  have hlead : WordChar '0' ∧ WordChar 'x' := by
    unfold WordChar
    decide
  obtain ⟨h0, hx⟩ := hlead
  exact List.forall_mem_cons.2 ⟨h0, List.forall_mem_cons.2 ⟨hx, wordChar_hexText n v⟩⟩

/-! ### Payload text -/

/-- The tokens of a payload's text, closing bracket included. -/
def payloadTokens (data : List Byte) : List Token := data.map (fun b => .word (hexText 2 b.toNat)) ++ [.closeBracket]

theorem tokens_payloadText (data : List Byte) : tokens [] (payloadText data) = payloadTokens data := by
  induction data using payloadText.induct with
  | case1 => rfl
  | case2 b =>
    rw [payloadText, tokens_word_append (hexText_ne_nil 1 _) (wordChar_hexText 2 _) (by simp [not_wordChar_separators])]
    rfl
  | case3 b c bs ih =>
    rw [payloadText, tokens_word_append (hexText_ne_nil 1 _) (wordChar_hexText 2 _) (by simp [not_wordChar_separators])]
    exact congrArg _ ih

theorem payloadBytes_payloadTokens (data : List Byte) :
    payloadBytes (payloadTokens data) = some (data.map BitVec.toNat) := by
  induction data with
  | nil => rfl
  | cons b bs ih =>
    have hb : numeral 16 (hexText 2 b.toNat) = some b.toNat := literal_hexText b.isLt
    have hcons : payloadBytes (payloadTokens (b :: bs)) =
        (numeral 16 (hexText 2 b.toNat)).bind fun n => (payloadBytes (payloadTokens bs)).map (n :: ·) := rfl
    rw [hcons, hb, ih]
    rfl

/-- A mnemonic with a bracketed payload. -/
theorem tokens_payloadLine {m : String} (hm : m ∈ mnemonics) {head : List Char} (hhead : head = m.toList ++ [' ', '['])
    (data : List Byte) :
    tokens [] (head ++ payloadText data) = .word m.toList :: .openBracket :: payloadTokens data := by
  rw [hhead, List.append_assoc, ← tokens_payloadText]
  exact tokens_mnemonic hm _

theorem payloadOperand_payloadTokens (data : List Byte) :
    payloadOperand (.openBracket :: payloadTokens data) = some (data.map BitVec.toNat) :=
  payloadBytes_payloadTokens data

theorem toNat_le_of_mem_map (data : List Byte) : ∀ b ∈ data.map BitVec.toNat, b ≤ 0xff := by
  intro b hb
  obtain ⟨x, -, rfl⟩ := List.mem_map.1 hb
  exact Nat.le_of_lt_succ x.isLt

theorem map_ofNat_toNat (data : List Byte) : (data.map BitVec.toNat).map (BitVec.ofNat 8) = data := by
  simp [Function.comp_def]

theorem framePayload_toNat {data : List Byte} (h : payloadFits data = true) :
    framePayload (data.map BitVec.toNat) = some data := by
  have hlen : (data.map BitVec.toNat).length ≤ 2 ^ 32 - 1 := by
    rw [List.length_map]
    exact of_decide_eq_true h
  rw [framePayload_of_fits (toNat_le_of_mem_map data) hlen, map_ofNat_toNat]

/-! ### Lines -/

theorem assembleLine_of_tokens {line : String} {m : List Char} {ts : List Token}
    (h : tokens [] line.toList = .word m :: ts) : assembleLine line = (parseMnemonic m ts).bind assemble := by
  rw [assembleLine, h]

/-- `assembleLine_of_tokens` for a line given as its characters. -/
theorem assembleLine_ofList {text m : List Char} {ts : List Token} (h : tokens [] text = .word m :: ts) :
    assembleLine (String.ofList text) = (parseMnemonic m ts).bind assemble :=
  assembleLine_of_tokens (by rwa [String.toList_ofList])

/-- A mnemonic with one literal, in hexadecimal. -/
theorem tokens_literalLine {m : String} (hm : m ∈ mnemonics) {head : List Char}
    (hhead : head = m.toList ++ [' ', '0', 'x']) (n v : Nat) :
    tokens [] (head ++ hexText n v) = [.word m.toList, .word ('0' :: 'x' :: hexText n v)] := by
  rw [hhead, List.append_assoc]
  exact (tokens_mnemonic hm _).trans
    (congrArg _ (tokens_word_end (List.cons_ne_nil _ _) (wordChar_literal n v)))

/-- LOADKEY's two literals, with a comma between them. -/
theorem tokens_loadkeyLine (n v w : Nat) :
    tokens [] ("LOADKEY 0x".toList ++ hexText n v ++ ", 0x".toList ++ hexText n w) =
      [.word "LOADKEY".toList, .word ('0' :: 'x' :: hexText n v), .comma, .word ('0' :: 'x' :: hexText n w)] := by
  have hhead : "LOADKEY 0x".toList = "LOADKEY".toList ++ [' ', '0', 'x'] := by decide
  have hcomma : ", 0x".toList = [',', ' ', '0', 'x'] := by decide
  have hline : "LOADKEY 0x".toList ++ hexText n v ++ ", 0x".toList ++ hexText n w =
      "LOADKEY".toList ++ ' ' :: ('0' :: 'x' :: hexText n v ++ ',' :: ' ' :: '0' :: 'x' :: hexText n w) := by
    simp only [hhead, hcomma, List.append_assoc, List.cons_append, List.nil_append]
  rw [hline, tokens_mnemonic (by decide), tokens_word_append (List.cons_ne_nil _ _) (wordChar_literal n v)
    (by simp [not_wordChar_separators])]
  exact congrArg (fun ts => _ :: _ :: Token.comma :: ts)
    (tokens_word_end (List.cons_ne_nil _ _) (wordChar_literal n w))

/-- The text of a command is read back as the command. -/
def ReadsBack (i : Instr) : Prop := ∃ text, lineText i = some text ∧ assembleLine (String.ofList text) = some [i]

theorem readsBack_loadkey (k0 k1 : Word) : ReadsBack (.loadkey k0 k1) := by
  refine ⟨_, rfl, ?_⟩
  have h0 : literal ('0' :: 'x' :: hexText 16 k0.toNat) = some k0.toNat := literal_hexText k0.isLt
  have h1 : literal ('0' :: 'x' :: hexText 16 k1.toNat) = some k1.toNat := literal_hexText k1.isLt
  rw [assembleLine_ofList (tokens_loadkeyLine 16 k0.toNat k1.toNat), parseMnemonic_loadkey, keyOperands, h0, h1]
  exact (assemble_loadkey k0.toNat k1.toNat).trans (by simp [k0.isLt, k1.isLt])

/-- A mnemonic that takes a payload stands for what `assemble` makes of the payload's bytes. -/
theorem assembleLine_payloadLine {m : String} (hm : m ∈ mnemonics) {head : List Char}
    (hhead : head = m.toList ++ [' ', '[']) {cmd : List Nat → AsmLine}
    (hparse : ∀ ts, parseMnemonic m.toList ts = (payloadOperand ts).map cmd) (data : List Byte) :
    assembleLine (String.ofList (head ++ payloadText data)) = assemble (cmd (data.map BitVec.toNat)) := by
  rw [assembleLine_ofList (tokens_payloadLine hm hhead data), hparse, payloadOperand_payloadTokens, Option.map_some,
    Option.bind_some]

theorem readsBack_update {data : List Byte} (h : payloadFits data = true) : ReadsBack (.update data) := by
  refine ⟨_, rfl, ?_⟩
  rw [assembleLine_payloadLine (m := "UPDATE") (by decide) (by decide) parseMnemonic_update, assemble,
    framePayload_toNat h, Option.map_some]

theorem readsBack_digest {data : List Byte} (h : payloadFits data = true) : ReadsBack (.digest data) := by
  refine ⟨_, rfl, ?_⟩
  rw [assembleLine_payloadLine (m := "DIGEST") (by decide) (by decide) parseMnemonic_digest, assemble,
    framePayload_toNat h, Option.map_some]

theorem assembleLine_updateLong (bs : List Byte) :
    assembleLine (String.ofList ("UPDATE_LONG [".toList ++ payloadText bs)) = some (updateLong bs) := by
  rw [assembleLine_payloadLine (m := "UPDATE_LONG") (by decide) (by decide) parseMnemonic_updateLong, assemble,
    mapM_byteLiteral (toNat_le_of_mem_map bs), map_ofNat_toNat, Option.map_some]

/-- A mnemonic that takes one literal stands for what `assemble` makes of its value. -/
theorem assembleLine_literalLine {line : String} {m a : List Char} {x : Nat}
    (h : tokens [] line.toList = [.word m, .word a]) {cmd : Nat → AsmLine}
    (hparse : ∀ ts, parseMnemonic m ts = (literalOperand ts).map cmd) (ha : literal a = some x) :
    assembleLine line = assemble (cmd x) := by
  rw [assembleLine_of_tokens h, hparse, literalOperand, ha, Option.map_some, Option.bind_some]

/-- `assembleLine_literalLine` for a byte written as two hexadecimal digits. -/
theorem assembleLine_byteLine {m : String} (hm : m ∈ mnemonics) {head : List Char}
    (hhead : head = m.toList ++ [' ', '0', 'x']) {cmd : Nat → AsmLine}
    (hparse : ∀ ts, parseMnemonic m.toList ts = (literalOperand ts).map cmd) (b : Byte) :
    assembleLine (String.ofList (head ++ hexText 2 b.toNat)) = assemble (cmd b.toNat) := by
  have htokens := tokens_literalLine hm hhead 2 b.toNat
  rw [← String.toList_ofList (l := head ++ hexText 2 b.toNat)] at htokens
  exact assembleLine_literalLine htokens hparse (literal_hexText b.isLt)

/-- The byte literal of a byte's value is the byte. -/
theorem byteLiteral_toNat (b : Byte) : byteLiteral b.toNat = some b := by
  rw [byteLiteral_of_le (Nat.le_of_lt_succ b.isLt), BitVec.ofNat_toNat, BitVec.setWidth_eq]

theorem readsBack_updateU8 (b : Byte) : ReadsBack (.updateU8 b) := by
  refine ⟨_, rfl, ?_⟩
  rw [assembleLine_byteLine (m := "UPDATE_U8") (by decide) (by decide) parseMnemonic_updateU8, assemble,
    byteLiteral_toNat, Option.map_some]

theorem readsBack_digestU8 (b : Byte) : ReadsBack (.digestU8 b) := by
  refine ⟨_, rfl, ?_⟩
  rw [assembleLine_byteLine (m := "DIGEST_U8") (by decide) (by decide) parseMnemonic_digestU8, assemble,
    byteLiteral_toNat, Option.map_some]

/-- A key literal out of range rejects the line (30_encoding.md R87). -/
theorem assembleLine_bad_key {line : String} {a b : List Char} {x y : Nat}
    (h : tokens [] line.toList = [.word "LOADKEY".toList, .word a, .comma, .word b]) (ha : literal a = some x)
    (hb : literal b = some y) (hbad : 2 ^ 64 ≤ x ∨ 2 ^ 64 ≤ y) : assembleLine line = none := by
  rw [assembleLine_of_tokens h, parseMnemonic_loadkey, keyOperands, ha, hb]
  exact (assemble_loadkey x y).trans (if_neg (by omega))

/-- A byte literal out of range rejects the line (30_encoding.md R87). -/
theorem assembleLine_bad_byte {line : String} {m a : List Char} {x : Nat}
    (h : tokens [] line.toList = [.word m, .word a]) (hm : m = "UPDATE_U8".toList ∨ m = "DIGEST_U8".toList)
    (ha : literal a = some x) (hbad : 0xff < x) : assembleLine line = none := by
  rcases hm with rfl | rfl
  · rw [assembleLine_literalLine h parseMnemonic_updateU8 ha, assemble, byteLiteral_of_gt hbad, Option.map_none]
  · rw [assembleLine_literalLine h parseMnemonic_digestU8 ha, assemble, byteLiteral_of_gt hbad, Option.map_none]

/-- Settles O58, clause by clause; each command by its own text. -/
theorem assemblerReadsText : Obligations.AssemblerReadsText := by
  unfold Obligations.AssemblerReadsText
  refine ⟨?commands, assembleLine_updateLong, by decide +kernel, ?comment, ?mnemonic,
    fun _ _ _ _ _ => assembleLine_bad_key, fun _ _ _ _ => assembleLine_bad_byte, by decide +kernel⟩
  case commands =>
    intro i hw hlegal
    cases i with
    | loadkey k0 k1 => exact readsBack_loadkey k0 k1
    | init => exact ⟨_, rfl, by decide +kernel⟩
    | update data => exact readsBack_update hw
    | updateU8 b => exact readsBack_updateU8 b
    | finish => exact ⟨_, rfl, by decide +kernel⟩
    | digest data => exact readsBack_digest hw
    | digestU8 b => exact readsBack_digestU8 b
    | illegal op => exact absurd rfl (hlegal op)
  case comment =>
    intro text comment h
    rw [assembleLine, assembleLine, String.toList_ofList, String.toList_ofList, tokens_comment h]
  case mnemonic =>
    intro line m ts h hm
    rw [assembleLine_of_tokens h, parseMnemonic_other ts hm, Option.bind_none]

end Sys2Proof.Machine
end

section
/-! PROOFS. Rotation, SipRound and Compress (40_permutation.md R100 to R105): what each does, and how it is undone. -/

namespace Sys2Proof.Machine

/-! ### Rotate left -/

/-- The model's rotation is the core library's, at every amount that R100 defines. -/
theorem rotl64_eq_rotateLeft (a : Word) {s : Nat} (hs : s < 64) : rotl64 a s = a.rotateLeft s := by
  rw [BitVec.rotateLeft_def, Nat.mod_eq_of_lt hs, rotl64]

@[simp] theorem rotl64_zero (s : Nat) : rotl64 0 s = 0 := by simp [rotl64]

/-- The bit law (40_permutation.md R100): the low `s` bits come round from the top, the others move up. -/
theorem getLsbD_rotl64 (a : Word) {s i : Nat} (hs : s < 64) (hi : i < 64) :
    (rotl64 a s).getLsbD i = a.getLsbD ((i + 64 - s) % 64) := by
  rw [rotl64_eq_rotateLeft a hs, BitVec.getLsbD_rotateLeft_of_le hs]
  by_cases his : i < s
  · have hsrc : (i + 64 - s) % 64 = 64 - s + i := by omega
    simp [his, hsrc]
  · have hsrc : (i + 64 - s) % 64 = i - s := by omega
    simp [his, hi, hsrc]

/-- Two rotations that add up to 64 give the word back. -/
theorem rotl64_rotl64 (a : Word) {s t : Nat} (hs : 0 < s) (ht : 0 < t) (hst : s + t = 64) :
    rotl64 (rotl64 a s) t = a := by
  apply BitVec.eq_of_getLsbD_eq
  intro i hi
  have hsrc : ((i + 64 - t) % 64 + 64 - s) % 64 = i := by omega
  rw [getLsbD_rotl64 _ (by omega) hi, getLsbD_rotl64 _ (by omega) (Nat.mod_lt _ (by decide)), hsrc]

@[simp] theorem rotl64_32_rotl64_32 (a : Word) : rotl64 (rotl64 a 32) 32 = a :=
  rotl64_rotl64 a (by decide) (by decide) rfl

/-- Rotation loses no bit (40_permutation.md R100). -/
theorem rotl64_eq_zero_iff (a : Word) {s : Nat} (hs : 0 < s) (hs' : s < 64) : rotl64 a s = 0 ↔ a = 0 := by
  constructor
  · intro h
    rw [← rotl64_rotl64 a hs (Nat.sub_pos_of_lt hs') (by omega), h, rotl64_zero]
  · rintro rfl
    exact rotl64_zero s

/-- Rotation by 32 swaps the halves (40_permutation.md R100). -/
theorem rotl64_32 (a : Word) : rotl64 a 32 = a.extractLsb' 0 32 ++ a.extractLsb' 32 32 := by
  apply BitVec.eq_of_getLsbD_eq
  intro i hi
  rw [getLsbD_rotl64 a (by decide) hi, BitVec.getLsbD_append, BitVec.getLsbD_extractLsb', BitVec.getLsbD_extractLsb']
  split
  case isTrue hlow =>
    have hsrc : (i + 64 - 32) % 64 = 32 + i := by omega
    simp only [hsrc, hlow, decide_true, Bool.true_and]
  case isFalse hhigh =>
    have hsrc : (i + 64 - 32) % 64 = i - 32 := by omega
    have hlt : i - 32 < 32 := by omega
    simp only [hsrc, hlt, decide_true, Bool.true_and, Nat.zero_add]

/-- Settles O7 from the bit law and the undoing of a rotation. -/
theorem rotateLeftBits : Obligations.RotateLeftBits := by
  unfold Obligations.RotateLeftBits
  refine ⟨fun a s i _ hs hi => getLsbD_rotl64 a (by omega) hi,
    fun a s hs hs' => rotl64_eq_zero_iff a hs (by omega), rotl64_32, ?_, ?_⟩ <;> decide

/-! ### SipRound -/

/-- What every step of SipRound does to its two lanes (40_permutation.md R102): add, rotate the second, XOR. -/
def mix (s : Nat) (p : Word × Word) : Word × Word := (p.1 + p.2, rotl64 p.2 s ^^^ (p.1 + p.2))

/-- `mix` undone: XOR by XOR, the rotation by the opposite one, the addition by subtraction (40_permutation.md R103). -/
def unmix (s : Nat) (p : Word × Word) : Word × Word :=
  (p.1 - rotl64 (p.2 ^^^ p.1) (64 - s), rotl64 (p.2 ^^^ p.1) (64 - s))

theorem unmix_mix {s : Nat} (hs : 0 < s) (hs' : s < 64) (p : Word × Word) : unmix s (mix s p) = p := by
  have hrot : rotl64 (rotl64 p.2 s) (64 - s) = p.2 := rotl64_rotl64 p.2 hs (Nat.sub_pos_of_lt hs') (by omega)
  simp [mix, unmix, hrot]

theorem mix_unmix {s : Nat} (hs : 0 < s) (hs' : s < 64) (p : Word × Word) : mix s (unmix s p) = p := by
  have hrot : rotl64 (rotl64 (p.2 ^^^ p.1) (64 - s)) s = p.2 ^^^ p.1 :=
    rotl64_rotl64 _ (Nat.sub_pos_of_lt hs') hs (by omega)
  simp [mix, unmix, hrot]

/-- SipRound is four mixes, two of them followed by a swap of halves (40_permutation.md R102). -/
theorem sipRound_eq_mix (v : Lanes) :
    sipRound v =
      let p := mix 13 (v.v0, v.v1)
      let q := mix 16 (v.v2, v.v3)
      let r := mix 21 (rotl64 p.1 32, q.2)
      let t := mix 17 (q.1, p.2)
      { v0 := r.1, v1 := t.2, v2 := rotl64 t.1 32, v3 := r.2 } := rfl

/-- The four mixes undone, last first. -/
def unSipRound (v : Lanes) : Lanes :=
  let t := unmix 17 (rotl64 v.v2 32, v.v1)
  let r := unmix 21 (v.v0, v.v3)
  let q := unmix 16 (t.1, r.2)
  let p := unmix 13 (rotl64 r.1 32, t.2)
  { v0 := p.1, v1 := p.2, v2 := q.1, v3 := q.2 }

theorem unSipRound_sipRound (v : Lanes) : unSipRound (sipRound v) = v := by
  simp [sipRound_eq_mix, unSipRound, unmix_mix]

theorem sipRound_unSipRound (v : Lanes) : sipRound (unSipRound v) = v := by
  simp [sipRound_eq_mix, unSipRound, mix_unmix]

/-- Settles O10: SipRound has a two-sided inverse. -/
theorem sipRoundBijective : Obligations.SipRoundBijective := by
  unfold Obligations.SipRoundBijective
  exact Function.bijective_iff_has_inverse.2 ⟨unSipRound, unSipRound_sipRound, sipRound_unSipRound⟩

/-- Settles O8: the lanes by the mixes, with the core library's rotation; the two examples by running the model. -/
theorem sipRoundLanes : Obligations.SipRoundLanes := by
  unfold Obligations.SipRoundLanes
  refine ⟨?lanes, by decide +kernel, by decide +kernel⟩
  case lanes =>
    rintro v _ _ _ _ rfl rfl rfl rfl
    simp [sipRound_eq_mix, mix, rotl64_eq_rotateLeft]

/-! ### Compress -/

/-- Any number of rounds is a bijection (40_permutation.md R103, R104). -/
theorem rounds_bijective (r : Nat) : Function.Bijective fun v => rounds v r := by
  induction r with
  | zero => exact Function.bijective_id
  | succ r ih => exact ih.comp sipRoundBijective

theorem xorLane0_involutive (m : Word) : Function.Involutive fun v : Lanes => { v with v0 := v.v0 ^^^ m } := by
  intro v
  simp

theorem xorLane3_involutive (m : Word) : Function.Involutive fun v : Lanes => { v with v3 := v.v3 ^^^ m } := by
  intro v
  simp

/-- Settles O11: an XOR into lane 3, the rounds and an XOR into lane 0 are bijections, and so is their composition. -/
theorem compressBijective : Obligations.CompressBijective := by
  unfold Obligations.CompressBijective
  intro m
  exact (xorLane0_involutive m).bijective.comp
    ((rounds_bijective Config.cRounds).comp (xorLane3_involutive m).bijective)

/-- The zero block runs the rounds and nothing else (40_permutation.md R105). -/
theorem compress_zero (v : Lanes) : compress v 0 = rounds v 2 := by simp [compress]

/-- Settles O9: the rule is Compress's own text; the lanes (1, 0, 0, 0) are not left as they were. -/
theorem compressRule : Obligations.CompressRule := by
  unfold Obligations.CompressRule
  refine ⟨?rule, compress_zero, ⟨{ v0 := 1, v1 := 0, v2 := 0, v3 := 0 }, by decide +kernel⟩, by decide +kernel⟩
  case rule =>
    rintro v m _ rfl
    rfl

end Sys2Proof.Machine
end

section
/-! PROOFS. Absorb branch by branch, as equations of whole engines (41_absorption.md R121 to R126). -/

namespace Sys2Proof.Machine

theorem tailWith_nil (e : Engine) : e.tailWith [] = e.tail := by simp [Engine.tailWith, le64]

/-- With nothing pending the TAIL invariant says that TAIL is 0 (10_state.md R27). -/
theorem Engine.TailClear.tail_eq_zero {e : Engine} (h : e.TailClear) (h0 : e.ntail.toNat = 0) : e.tail = 0 := by
  simpa [Engine.TailClear, h0] using h

/-- Bytes that leave room in the pending block land above the pending ones. This is `absorb_of_short` with nothing
pending too, where a clear TAIL makes the new tail the OR that it is elsewhere. -/
theorem absorb_of_room {e : Engine} {bs : List Byte} (h : e.TailClear) (hs : e.ntail.toNat + bs.length < 8) :
    absorb e bs = { e with
      length := e.length + BitVec.ofNat 64 bs.length
      tail := e.tailWith bs
      ntail := BitVec.ofNat 3 (e.ntail.toNat + bs.length) } := by
  rcases Nat.eq_zero_or_pos e.ntail.toNat with h0 | hpos
  · have htail : e.tailWith bs = le64 bs := by simp [Engine.tailWith, h.tail_eq_zero h0, h0]
    rw [absorb_of_empty_tail bs h0, absorbFull_short _ (by omega), htail, h0, Nat.zero_add]
  · exact absorb_of_short hpos hs

/-- Nothing is compressed where the bytes leave room in the pending block, whatever TAIL holds. -/
theorem absorb_lanes_of_room {e : Engine} {bs : List Byte} (hs : e.ntail.toNat + bs.length < 8) :
    (absorb e bs).lanes = e.lanes := by
  rcases Nat.eq_zero_or_pos e.ntail.toNat with h0 | hpos
  · rw [absorb_of_empty_tail bs h0, absorbFull_short _ (by omega)]
  · rw [absorb_of_short hpos hs]

/-- Settles O13: no bytes leave room in every pending block, and are ORed in as 0. -/
theorem absorbEmpty : Obligations.AbsorbEmpty := by
  unfold Obligations.AbsorbEmpty
  intro e h
  rw [absorb_of_room h (bs := []) e.ntail.isLt, tailWith_nil]
  simp

/-- Settles O12: the TAIL invariant from `absorb_tailClear`, the bound from NTAIL's three bits. -/
theorem absorbKeepsTailClear : Obligations.AbsorbKeepsTailClear := by
  unfold Obligations.AbsorbKeepsTailClear
  intro e bs h
  exact ⟨absorb_tailClear h bs, Nat.le_of_lt_succ (absorb e bs).ntail.isLt⟩

/-- The engine in which the bytes `head`, which fill the pending block, have been compressed with it; LENGTH has yet to
count them (41_absorption.md R121 step 2). -/
def Engine.completedWith (e : Engine) (head : List Byte) : Engine :=
  { e with lanes := compress e.lanes (e.tailWith head), tail := 0, ntail := 0 }

/-- Bytes that complete the pending block: what follows them is absorbed with nothing pending. -/
theorem absorb_completion_append {e : Engine} {head : List Byte} (rest : List Byte) (h : 0 < e.ntail.toNat)
    (hh : head.length = 8 - e.ntail.toNat) :
    absorb e (head ++ rest) =
      { absorb (e.completedWith head) rest with length := e.length + BitVec.ofNat 64 (head ++ rest).length } := by
  have hfull : 8 ≤ e.ntail.toNat + (head ++ rest).length := by
    rw [List.length_append]
    omega
  rw [absorb_of_completion h hfull, List.take_left' hh, List.drop_left' hh, absorb_of_empty_tail rest rfl]
  rfl

/-- With nothing pending a whole word is compressed, and the rest absorbed (41_absorption.md R121 step 3, R123). -/
theorem absorb_block_append {e : Engine} {head : List Byte} (rest : List Byte) (h : e.ntail.toNat = 0)
    (hh : head.length = 8) :
    absorb e (head ++ rest) =
      { absorb { e with lanes := compress e.lanes (le64 head) } rest with
        length := e.length + BitVec.ofNat 64 (head ++ rest).length } := by
  have hfull : 8 ≤ (head ++ rest).length := by
    rw [List.length_append]
    omega
  rw [absorb_of_empty_tail _ h, absorbFull_block _ hfull, List.take_left' hh, List.drop_left' hh,
    absorb_of_empty_tail (e := { e with lanes := compress e.lanes (le64 head) }) rest h]
  rfl

/-- Bytes that complete the pending block exactly are compressed with it at once (41_absorption.md R124). -/
theorem absorb_exact {e : Engine} {bs : List Byte} (h : 0 < e.ntail.toNat) (hb : bs.length = 8 - e.ntail.toNat) :
    absorb e bs = { e.completedWith bs with length := e.length + BitVec.ofNat 64 bs.length } := by
  have happend := absorb_completion_append [] h hb
  rwa [List.append_nil, absorbEmpty (e.completedWith bs) rfl] at happend

/-- Settles O15. -/
theorem absorbExactCompletion : Obligations.AbsorbExactCompletion := by
  unfold Obligations.AbsorbExactCompletion
  intro e bs h hb
  rw [absorb_exact h hb]
  exact ⟨rfl, rfl, rfl⟩

/-- Settles O14: each clause reads its registers off the branch's equation. -/
theorem absorbSteps : Obligations.AbsorbSteps := by
  unfold Obligations.AbsorbSteps
  refine ⟨absorb_length, ?short, ?completion, ?block, ?remainder⟩
  case short =>
    intro e bs h hs
    rw [absorb_of_short h hs]
    exact ⟨rfl, rfl, toNat_ofNat_ntail hs⟩
  case completion =>
    rintro e _ head rest h hh rfl
    rw [absorb_completion_append rest h hh]
    exact ⟨rfl, rfl, rfl⟩
  case block =>
    rintro e _ head rest h hh rfl
    rw [absorb_block_append rest (congrArg BitVec.toNat h) hh]
    exact ⟨rfl, rfl, rfl⟩
  case remainder =>
    intro e bs h hs
    rw [absorb_of_empty_tail bs (congrArg BitVec.toNat h), absorbFull_short _ hs]
    exact ⟨rfl, rfl, toNat_ofNat_ntail hs⟩

end Sys2Proof.Machine
end

section
/-! PROOFS. Chunking invariance and the stream characterisation (41_absorption.md R127, R128). -/

namespace Sys2Proof.Machine

/-! ### Chunks -/

/-- Settles O16: the engines by `absorb_append`, the commands by folding it over their payloads. -/
theorem chunkingInvariance : Obligations.ChunkingInvariance := by
  unfold Obligations.ChunkingInvariance
  refine ⟨absorb_append, ?commands⟩
  case commands =>
    intro s is chunks ha hne h
    have hchunks : chunks ≠ [] := by
      rintro rfl
      exact hne (List.map_eq_nil_iff.1 h)
    exact ⟨_, _, runCommands_absorbed ha h, exec_of_absorbed rfl ha, foldl_absorb_of_ne_nil s.eng hchunks, ha, ha⟩

/-! ### The engine as a function of the message -/

theorem slice_drop (bs : List Byte) (n a b : Nat) : slice (bs.drop n) a b = slice bs (n + a) (n + b) := by
  rw [slice_eq_drop_take, slice_eq_drop_take, List.drop_drop, Nat.add_sub_add_left]

/-- The lanes of a message, with its first word compressed beforehand. -/
theorem streamLanes_drop (w : Lanes) (msg : List Byte) (j : Nat) :
    streamLanes (compress w (le64 (msg.take 8))) (msg.drop 8) j = streamLanes w msg (j + 1) := by
  induction j with
  | zero => rfl
  | succ j ih =>
    have hword : slice (msg.drop 8) (8 * j) (8 * j + 8) = slice msg (8 * (j + 1)) (8 * (j + 1) + 8) := by
      rw [slice_drop]
      congr 1 <;> omega
    rw [streamLanes, ih, hword]
    rfl

/-- Steps 3 and 4 of Absorb in closed form: the full words compressed in order, and the bytes after them in TAIL. -/
theorem absorbFull_eq_stream (e : Engine) (msg : List Byte) :
    absorbFull e msg =
      { lanes := streamLanes e.lanes msg (msg.length / 8)
        tail := le64 (slice msg (8 * (msg.length / 8)) msg.length)
        ntail := BitVec.ofNat 3 (msg.length % 8)
        length := e.length } := by
  rcases Nat.lt_or_ge msg.length 8 with h | h
  · rw [absorbFull_short e h, Nat.div_eq_of_lt h, Nat.mod_eq_of_lt h, slice_eq_drop_take]
    simp [streamLanes]
  · have hdiv : msg.length / 8 = (msg.length - 8) / 8 + 1 := by omega
    have hmod : msg.length % 8 = (msg.length - 8) % 8 := by omega
    have hstart : 8 + 8 * ((msg.length - 8) / 8) = 8 * ((msg.length - 8) / 8 + 1) := by omega
    rw [absorbFull_block e h, absorbFull_eq_stream _ (msg.drop 8), streamLanes_drop, slice_drop, List.length_drop,
      Nat.add_sub_cancel' h, hdiv, hmod, hstart]
termination_by msg.length

/-- Absorbing a message into a fresh engine (41_absorption.md R128). -/
theorem absorb_keyInit (k0 k1 : Word) (msg : List Byte) : absorb (keyInit k0 k1) msg = streamEngine k0 k1 msg := by
  rw [absorb_of_empty_tail msg rfl, absorbFull_eq_stream, streamEngine]
  simp [keyInit]

/-! ### Commands that do not end the stream -/

/-- A command that does not end the stream keeps an engine and keys alive, and absorbs its part of the stream; where
that is empty, the TAIL invariant makes it no change. -/
theorem exec_of_streamPart {i : Instr} {bs : List Byte} {s : State} (h : i.streamPart? = some bs)
    (ha : s.engState = .active) (hk : s.keysValid = true) (hc : s.eng.TailClear) :
    ∃ t, exec i s = .next t ∧ t.engState = .active ∧ t.keysValid = true ∧ t.eng = absorb s.eng bs := by
  cases i with
  | loadkey k0 k1 =>
    cases h
    exact ⟨_, rfl, ha, rfl, (absorbEmpty s.eng hc).symm⟩
  | update data =>
    cases h
    exact ⟨_, exec_of_absorbed rfl ha, ha, hk, rfl⟩
  | updateU8 b =>
    cases h
    exact ⟨_, exec_of_absorbed rfl ha, ha, hk, rfl⟩
  | digest data =>
    cases h
    exact ⟨_, oneShot_of_valid data hk, ha, hk, (absorbEmpty s.eng hc).symm⟩
  | digestU8 b =>
    cases h
    exact ⟨_, oneShot_of_valid [b] hk, ha, hk, (absorbEmpty s.eng hc).symm⟩
  | init => cases h
  | finish => cases h
  | illegal op => cases h

/-- Commands that do not end the stream leave the engine with all their parts absorbed in order. -/
theorem runCommands_stream {s : State} {is : List Instr} {chunks : List (List Byte)} (ha : s.engState = .active)
    (hk : s.keysValid = true) (hc : s.eng.TailClear) (h : is.map Instr.streamPart? = chunks.map some) :
    ∃ t, runCommands is s = .next t ∧ t.engState = .active ∧ t.eng = absorb s.eng chunks.flatten := by
  induction is generalizing s chunks with
  | nil =>
    obtain rfl := List.map_eq_nil_iff.1 h.symm
    exact ⟨s, rfl, ha, (absorbEmpty s.eng hc).symm⟩
  | cons i is ih =>
    cases chunks with
    | nil => cases h
    | cons c cs =>
      obtain ⟨hi, his⟩ := List.cons.inj h
      obtain ⟨t, hexec, hta, htk, hteng⟩ := exec_of_streamPart hi ha hk hc
      obtain ⟨u, hrun, hua, hueng⟩ := ih hta htk (hteng ▸ absorb_tailClear hc c) his
      refine ⟨u, (runCommands_cons is hexec).trans hrun, hua, ?_⟩
      rw [hueng, hteng, absorb_append, List.flatten_cons]

/-- Settles O17: INIT starts the engine, the commands absorb the message, and the fresh engine's closed form applies. -/
theorem streamCharacterisation : Obligations.StreamCharacterisation := by
  unfold Obligations.StreamCharacterisation
  intro s is chunks hk h
  set s0 := respond [okByte] { s with eng := keyInit s.k0 s.k1, engState := .active }
  have hinit : exec .init s = .next s0 := execInit_of_valid hk
  obtain ⟨t, hrun, hta, hteng⟩ := runCommands_stream (s := s0) rfl hk (keyInit_tailClear _ _) h
  refine ⟨t, (runCommands_cons is hinit).trans hrun, hta, hteng.trans (absorb_keyInit _ _ _), ?count⟩
  case count =>
    rw [hteng]
    exact absorb_keeps_count rfl _

end Sys2Proof.Machine
end

section
/-! PROOFS. LENGTH's wrap, and what UPDATE and UPDATE_U8 do (41_absorption.md R120, R129, R130). -/

namespace Sys2Proof.Machine

/-! ### LENGTH -/

theorem and_0xff_eq_of_mod_eq {l m : Word} (h : l.toNat % 256 = m.toNat % 256) : l &&& 0xff = m &&& 0xff := by
  apply BitVec.eq_of_toNat_eq
  have hand (n : Nat) : n &&& 255 = n % 256 := Nat.and_two_pow_sub_one_eq_mod n 8
  simpa [hand] using h

/-- The pad word knows LENGTH modulo 256 only (42_finalization.md R142). -/
theorem padWord_of_length_mod {e : Engine} {l : Word} (h : l.toNat % 256 = e.length.toNat % 256) :
    Engine.padWord { e with length := l } = e.padWord := by
  rw [Engine.padWord, Engine.padWord, and_0xff_eq_of_mod_eq h]

/-- Settles O18: LENGTH enters the digest through the pad word alone; the example by an exact completion. -/
theorem lengthWraps : Obligations.LengthWraps := by
  unfold Obligations.LengthWraps
  refine ⟨?count, ?digest, ?wrap⟩
  case count =>
    intro e bs
    rw [absorb_length, BitVec.toNat_add, BitVec.toNat_ofNat, Nat.add_mod_mod]
  case digest =>
    intro e l h
    rw [finalize, finalize, padWord_of_length_mod h]
  case wrap =>
    intro s ha hl hn
    have hn7 : s.eng.ntail.toNat = 7 := congrArg BitVec.toNat hn
    have hexact := absorb_exact (e := s.eng) (bs := [0x11]) (by omega) (by rw [hn7]; rfl)
    refine ⟨_, exec_of_absorbed rfl ha, rfl, ha, ?_, ?_⟩
    · rw [respond_eng, hexact, hl]
      rfl
    · rw [respond_eng, hexact]
      rfl

/-! ### UPDATE and UPDATE_U8 -/

/-- Outside ACTIVE both commands raise NOT_ACTIVE (60_exceptions.md R203). -/
theorem exec_of_absorbed_not_active {i : Instr} {bs : List Byte} {s : State} (h : i.absorbed? = some bs)
    (ha : s.engState ≠ .active) : exec i s = .next (raise .notActive s) := by
  rcases absorbed_cases h with rfl | ⟨b, rfl, rfl⟩
  · exact absorbCommand_of_not_active _ ha
  · exact absorbCommand_of_not_active _ ha

/-- Settles O25. -/
theorem updateCompletes : Obligations.UpdateCompletes := by
  unfold Obligations.UpdateCompletes
  refine ⟨?encoding, fun s data ha => exec_of_absorbed rfl ha, fun s data ha => exec_of_absorbed_not_active rfl ha,
    ?empty, fun e data h hd => (absorbExactCompletion e data h hd).2, ?room, by decide⟩
  case encoding =>
    intro data hlen
    exact decode_encode (i := .update data) (decide_eq_true hlen)
  case empty =>
    intro s ha hc
    rw [exec_of_absorbed (i := .update []) rfl ha, absorbEmpty s.eng hc]
    rfl
  case room =>
    intro e data hd
    exact absorb_lanes_of_room (by omega)

theorem le64_singleton (b : Byte) : le64 [b] = b.setWidth 64 := by simp [le64]

/-- A byte ORed in above a clear TAIL stands at position NTAIL (41_absorption.md R130). -/
theorem extractLsb'_tailWith_singleton {e : Engine} (h : e.TailClear) (b : Byte) :
    (e.tailWith [b]).extractLsb' (8 * e.ntail.toNat) 8 = b := by
  apply BitVec.eq_of_getLsbD_eq
  intro j hj
  have hcount := e.ntail.isLt
  have hold : e.tail.getLsbD (8 * e.ntail.toNat + j) = false := e.tailClear_iff.1 h _ (by omega)
  have hpos : 8 * e.ntail.toNat + j < 64 := by omega
  have hj64 : j < 64 := by omega
  rw [BitVec.getLsbD_extractLsb', Engine.tailWith, BitVec.getLsbD_or, BitVec.getLsbD_shiftLeft, hold, le64_singleton,
    Nat.add_sub_cancel_left, BitVec.getLsbD_setWidth]
  simp [hj, hpos, hj64]

/-- Settles O26: a byte leaves room in a block of fewer than 7, and completes one of 7. -/
theorem updateU8Completes : Obligations.UpdateU8Completes := by
  unfold Obligations.UpdateU8Completes
  refine ⟨fun b => decode_encode (i := .updateU8 b) rfl, fun s b ha => exec_of_absorbed rfl ha, fun s b => rfl, ?room,
    ?exactly, fun s b ha => exec_of_absorbed_not_active rfl ha, ?worked⟩
  case room =>
    intro e b hc hn
    have hs : e.ntail.toNat + [b].length < 8 := by
      rw [List.length_singleton]
      omega
    rw [absorb_of_room hc hs]
    exact ⟨rfl, extractLsb'_tailWith_singleton hc b, toNat_ofNat_ntail hs⟩
  case exactly =>
    intro e b hn
    have hexact := absorbExactCompletion e [b] (by omega) (by rw [hn]; rfl)
    rwa [le64_singleton, hn] at hexact
  case worked =>
    intro e ht hn
    have hn3 : e.ntail.toNat = 3 := congrArg BitVec.toNat hn
    have hshort := absorb_of_short (e := e) (bs := [0x03]) (by omega) (by rw [hn3]; decide)
    rw [hshort, Engine.tailWith, hn3, ht]
    rfl

end Sys2Proof.Machine
end

section
/-! PROOFS. The digest function: FINISH after INIT and any split of a message, DIGEST and DIGEST_U8
(42_finalization.md R147). -/

namespace Sys2Proof.Machine

/-- Settles O21: FINISH by `runCommands_digest`, DIGEST and DIGEST_U8 by their one-shot body. -/
theorem finishReturnsSipHash : Obligations.FinishReturnsSipHash := by
  unfold Obligations.FinishReturnsSipHash
  exact ⟨fun _ _ _ hk h => runCommands_digest hk h, fun _ data hk => oneShot_of_valid data hk,
    fun _ b hk => oneShot_of_valid [b] hk⟩

end Sys2Proof.Machine
end

section
/-! PROOFS. The pad word and Finalize's steps (42_finalization.md R141, R142). -/

namespace Sys2Proof.Machine

/-- The low byte of LENGTH is LENGTH modulo 256. -/
theorem and_0xff_eq_ofNat_mod (l : Word) : l &&& 0xff = BitVec.ofNat 64 (l.toNat % 256) := by
  apply BitVec.eq_of_toNat_eq
  rw [BitVec.toNat_and, BitVec.toNat_ofNat (l.toNat % 256), Nat.mod_eq_of_lt (a := l.toNat % 256) (by omega)]
  exact Nat.and_two_pow_sub_one_eq_mod l.toNat 8

/-- The pad word as the spec writes it, with LENGTH modulo 256 as a number. -/
theorem padWord_eq (e : Engine) :
    e.padWord = (BitVec.ofNat 64 (e.length.toNat % 256) <<< 56) ||| e.tail := by
  rw [Engine.padWord, and_0xff_eq_ofNat_mod]

/-- NTAIL is at most 7, so the TAIL invariant leaves the top byte, where the count goes, clear (10_state.md R27). -/
theorem Engine.TailClear.tail_top_byte {e : Engine} (h : e.TailClear) : e.tail >>> 56 = 0#64 := by
  have hcount := e.ntail.isLt
  apply BitVec.eq_of_getLsbD_eq
  intro j _
  have hbit : e.tail.getLsbD (56 + j) = false := e.tailClear_iff.1 h _ (by omega)
  simpa using hbit

/-- A byte that is shifted to the top is read back there whole. -/
theorem toNat_top_byte {n : Nat} (h : n < 256) : ((BitVec.ofNat 64 n <<< 56) >>> 56).toNat = n := by
  simp only [BitVec.toNat_ushiftRight, BitVec.toNat_shiftLeft, BitVec.toNat_ofNat, Nat.shiftLeft_eq,
    Nat.shiftRight_eq_div_pow]
  omega

/-- What is shifted to the top byte does not reach the seven bytes below. -/
theorem extractLsb'_shiftLeft_56 (w : Word) : (w <<< 56).extractLsb' 0 56 = 0#56 := by
  apply BitVec.eq_of_getLsbD_eq
  intro j hj
  simp [hj]

theorem padWord_of_nothing_pending {e : Engine} (h : e.TailClear) (h0 : e.ntail = 0) :
    e.padWord = BitVec.ofNat 64 (e.length.toNat % 256) <<< 56 := by
  have htail : e.tail = 0#64 := h.tail_eq_zero (congrArg BitVec.toNat h0)
  rw [padWord_eq, htail, BitVec.or_zero]

/-- Settles O19: the count and TAIL's bytes stand apart, since the TAIL invariant keeps TAIL's top byte clear. -/
theorem padWordParts : Obligations.PadWordParts := by
  unfold Obligations.PadWordParts
  intro e h
  refine ⟨?count, ?pending, padWord_of_nothing_pending h, ?zero, fun l => padWord_of_length_mod⟩
  case count =>
    rw [padWord_eq, BitVec.ushiftRight_or_distrib, h.tail_top_byte, BitVec.or_zero,
      toNat_top_byte (Nat.mod_lt _ (by decide))]
  case pending =>
    rw [padWord_eq, BitVec.extractLsb'_or, extractLsb'_shiftLeft_56, BitVec.zero_or]
  case zero =>
    intro h0 hl
    have hpad : e.padWord = 0 := by
      rw [padWord_of_nothing_pending h h0, hl]
      rfl
    exact ⟨hpad, by rw [finalize, hpad]⟩

/-- Settles O20: the pad word in the spec's form, then Finalize as it is defined, which does not read NTAIL. -/
theorem finalizeSteps : Obligations.FinalizeSteps := by
  unfold Obligations.FinalizeSteps
  refine ⟨?steps, fun e n => rfl⟩
  case steps =>
    rintro e v w rfl rfl
    rw [← padWord_eq]
    rfl

end Sys2Proof.Machine
end

section
/-! PROOFS. What FINISH does (42_finalization.md R140). -/

namespace Sys2Proof.Machine

/-- Settles O27: FINISH by its laws in and outside ACTIVE, on the state that INIT leaves, and by running the example. -/
theorem finishCompletes : Obligations.FinishCompletes := by
  unfold Obligations.FinishCompletes
  refine ⟨decode_finish [], ?active, fun s ha => execFinish_of_not_active ha, ?empty, ?worked⟩
  case active =>
    intro s ha
    exact ⟨_, execFinish_of_active ha, engine?_of_not_active (by simp), rfl⟩
  case empty =>
    intro s hk
    set started := respond [okByte] { s with eng := keyInit s.k0 s.k1, engState := .active }
    set finished := respond (digestResponse (finalize started.eng)) (consumeEngine started)
    have hinit : exec .init s = .next started := execInit_of_valid hk
    have hfinish : exec .finish started = .next finished := execFinish_of_active (s := started) rfl
    refine ⟨finished, _, ?_, ?_, execInit_of_valid (s := finished) hk, rfl⟩
    · rw [runCommands_cons _ hinit, runCommands_cons _ hfinish, runCommands]
    · simp [started, finished, digestResponse, okByte, sipHash24, absorb_keyInit_nil]
  case worked =>
    exact ⟨_, rfl, by decide⟩

end Sys2Proof.Machine
end

section
/-! PROOFS. The commands of the key store and the one-shots: what LOADKEY, INIT, DIGEST and DIGEST_U8 do, and the digest
that INIT, UPDATE and FINISH return (43_factory.md R160 to R167). -/

namespace Sys2Proof.Machine

/-- Settles O22: the three commands by O21 with the payload as its one chunk, DIGEST by O21's one-shot clause. -/
theorem oneShotEquivalence : Obligations.OneShotEquivalence := by
  unfold Obligations.OneShotEquivalence
  intro s data hk
  obtain ⟨hstream, hdigest, -⟩ := finishReturnsSipHash
  obtain ⟨u, hrun, hidle, htx⟩ := hstream s [.update data] [data] hk rfl
  rw [List.flatten_singleton] at htx
  exact ⟨_, u, _, hdigest s data hk, hrun, rfl, rfl, htx, hidle⟩

/-- Settles O23: LOADKEY has one outcome, its second run writes what the first wrote (O55), and the example is run. -/
theorem loadkeyCompletes : Obligations.LoadkeyCompletes := by
  unfold Obligations.LoadkeyCompletes
  obtain ⟨hagain, -⟩ := repeatedCommands
  exact ⟨fun k0 k1 => decode_encode (i := .loadkey k0 k1) rfl,
    fun s k0 k1 _ => rfl,
    fun s t u k0 k1 _ => hagain s t u k0 k1,
    ⟨_, rfl, by decide⟩⟩

/-- Settles O24: INIT by its laws with and without keys, and by running the example. -/
theorem initCompletes : Obligations.InitCompletes := by
  unfold Obligations.InitCompletes
  exact ⟨decode_init [],
    fun s hk _ => execInit_of_valid hk,
    fun s hk _ => execInit_of_not_valid hk,
    ⟨_, rfl, by decide⟩⟩

/-- Settles O28: DIGEST by the one-shot's laws with and without keys, and by running the example. -/
theorem digestCompletes : Obligations.DigestCompletes := by
  unfold Obligations.DigestCompletes
  exact ⟨fun data hlen => decode_encode (i := .digest data) (decide_eq_true hlen),
    fun s data hk _ => ⟨_, rfl, oneShot_of_valid data hk⟩,
    fun s data hk _ => oneShot_of_not_valid data hk,
    ⟨_, rfl, by decide +kernel⟩⟩

/-- Settles O29: DIGEST_U8 has DIGEST's body, so the one-shot's laws hold of it for one byte. -/
theorem digestU8Completes : Obligations.DigestU8Completes := by
  unfold Obligations.DigestU8Completes
  exact ⟨fun b => decode_encode (i := .digestU8 b) rfl,
    fun s b hk _ => ⟨_, rfl, oneShot_of_valid [b] hk⟩,
    fun s b => rfl,
    fun s b hk _ => oneShot_of_not_valid [b] hk,
    ⟨_, rfl, by decide +kernel⟩⟩

end Sys2Proof.Machine
end

section
/-! PROOFS. Runs of whole transactions: the host sends a frame and takes its response (70_reset_and_hazards.md R233,
R241). -/

namespace Sys2Proof.Machine

/-- A run of one step more begins with that step, in every machine. -/
theorem run_of_step {M : Host.Core} {s t : M.State} (k : Nat) (h : M.step s = .next t) :
    M.run (k + 1) s = M.run k t := by
  rw [Host.Core.run, h]

/-- No command drives RST. -/
theorem exec_rst {i : Instr} {s t : State} (h : exec i s = .next t) : t.rst = s.rst := by
  rcases exec_next_cases h with ⟨c, -, -, rfl⟩ | ⟨k0, k1, -, rfl⟩ | ⟨-, -, rfl⟩ | ⟨bs, -, -, rfl⟩ | ⟨-, -, rfl⟩ |
    ⟨bs, -, -, rfl⟩
  all_goals rfl

/-- The host takes every pending response byte, oldest first. -/
theorem run_takes {s : State} {resp : List Byte} {acts : List HostAct} (k : Nat) (hrst : s.rst = false)
    (htx : s.tx = resp) (hh : s.host = List.replicate resp.length .take ++ acts) :
    core.run (k + resp.length) s =
      core.run k { s with tx := [], delivered := s.delivered ++ resp, host := acts } := by
  induction resp generalizing s with
  | nil =>
    have hhost : acts = s.host := hh.symm
    have hsame : { s with tx := [], host := acts } = s := by rw [← htx, hhost]
    rw [List.append_nil, hsame]
    rfl
  | cons b rest ih =>
    have hstep := step_of_take hh ((rspValid_iff s).2 ⟨hrst, by simp [htx]⟩)
    rw [deliver_of_cons _ htx] at hstep
    have htook := run_of_step (M := core) (k + rest.length) hstep
    have hrest := ih (s := {
      s with tx := rest, delivered := s.delivered ++ [b], host := List.replicate rest.length .take ++ acts })
      hrst rfl rfl
    simp only [List.append_assoc] at hrest
    exact htook.trans hrest

/-- A transaction (70_reset_and_hazards.md R241): the host sends a command's frame to a block that waits for one, and
takes the whole response. What is left of it are the command's writes to the registers. -/
theorem run_transaction {s t : State} {i : Instr} {resp : List Byte} {acts : List HostAct} (k : Nat)
    (hw : i.wellFormed = true) (hc : s.cmdReady = true) (hrx : s.rx = []) (hresp : commandResponse i s = resp)
    (hh : s.host = .send (encode i) :: (List.replicate resp.length .take ++ acts))
    (he : exec i { s with rx := [], host := List.replicate resp.length .take ++ acts } = .next t) :
    core.run (k + resp.length + 1) s =
      core.run k { t with tx := [], delivered := s.delivered ++ resp, host := acts } := by
  obtain ⟨hrst, -, htx⟩ := (cmdReady_iff s).1 hc
  have hstep : step s = .next t :=
    (step_of_frame hh (encode_ne_nil i) hc (by rw [hrx]; exact decode_encode hw)).trans he
  obtain ⟨hpending, hdelivered⟩ := exec_response he
  rw [commandResponse_with_channels, hresp, htx, List.nil_append] at hpending
  have htakes := run_takes k ((exec_rst he).trans hrst) hpending (exec_receiver he).2
  rw [hdelivered] at htakes
  exact (run_of_step (M := core) _ hstep).trans htakes

/-- Settles O54: two transactions, the second on what the first leaves. -/
theorem oneShotTransactions : Obligations.OneShotTransactions := by
  unfold Obligations.OneShotTransactions
  intro s k0 k1 data acts hw hc hrx hh
  obtain ⟨hrst, hf, -⟩ := (cmdReady_iff s).1 hc
  set takes : List HostAct := List.replicate 9 .take ++ acts
  set loaded : State :=
    { s with k0 := k0, k1 := k1, keysValid := true, rx := [], tx := [], delivered := s.delivered ++ [0x00],
             host := .send (encode (.digest data)) :: takes }
  have hload : core.run 12 s = core.run 10 loaded := run_transaction 10 (i := .loadkey k0 k1) rfl hc hrx rfl hh rfl
  have hready : loaded.cmdReady = true := (cmdReady_iff loaded).2 ⟨hrst, hf, rfl⟩
  have hexec := oneShot_of_valid (s := { loaded with host := takes }) data rfl
  have hdigest := run_transaction 0 (s := loaded) (i := .digest data) hw hready rfl rfl rfl hexec
  refine ⟨_, hload.trans hdigest, ?delivered, rfl, rfl, rfl, rfl, rfl, ?busy⟩
  case delivered => exact List.append_assoc _ _ _
  case busy =>
    rw [status_busy]
    rfl

end Sys2Proof.Machine
end

section
/-! PROOFS. The faults: each check's own fault entry, what a command that passes answers, and FAULT until reset
(60_exceptions.md R201 to R208). -/

namespace Sys2Proof.Machine

/-! ### The fault entries -/

/-- The cause of a failing command is the one that R207's table lists for it. -/
theorem exec_raises {i : Instr} {s : State} {c : FaultCause} (hp : passesCheck i s = false)
    (hc : failCause i = some c) : exec i s = .next (raise c s) := by
  obtain ⟨d, hd, he⟩ := exec_of_failing hp
  obtain rfl : d = c := Option.some.inj (hd.symm.trans hc)
  exact he

/-- What raises NO_KEY has KEYS_VALID as its check (60_exceptions.md R207). -/
theorem passesCheck_of_noKey {i : Instr} (h : failCause i = some .noKey) (s : State) :
    passesCheck i s = s.keysValid := by
  cases i with
  | init => rfl
  | digest data => rfl
  | digestU8 b => rfl
  | loadkey _ _ | update _ | updateU8 _ | finish | illegal _ => simp [failCause] at h

/-- What raises NOT_ACTIVE has ENG_STATE = ACTIVE as its check (60_exceptions.md R207). -/
theorem passesCheck_of_notActive {i : Instr} (h : failCause i = some .notActive) (s : State) :
    passesCheck i s = decide (s.engState = .active) := by
  cases i with
  | update data => rfl
  | updateU8 b => rfl
  | finish => rfl
  | loadkey _ _ | init | digest _ | digestU8 _ | illegal _ => simp [failCause] at h

theorem exec_illegal (op : Byte) (s : State) : exec (.illegal op) s = .next (raise .illegalOpcode s) :=
  exec_raises rfl rfl

/-- A command with another cause than ILLEGAL_OPCODE is a legal one, so a proper beginning of its frame is only kept
(30_encoding.md R83). -/
theorem step_of_beginning {s : State} {i : Instr} {c : FaultCause} {k : Nat} {acts : List HostAct}
    (hw : i.wellFormed = true) (hc : failCause i = some c) (hne : c ≠ .illegalOpcode) (hready : s.cmdReady = true)
    (hrx : s.rx = []) (hpos : 0 < k) (hk : k < (encode i).length) (hh : s.host = .send ((encode i).take k) :: acts) :
    step s = .next { s with rx := (encode i).take k, host := acts } := by
  have hlegal : ∀ op, i ≠ .illegal op := by
    rintro op rfl
    exact hne (Option.some.inj hc).symm
  obtain ⟨hbeginning, -⟩ := wholeFrameBeforeCheck s i acts hw hlegal hready hrx
  exact hbeginning k hpos hk hh

/-- Settles O33: the failing command is its fault entry, and STATUS shows the two registers that the entry writes. -/
theorem faultEntryWrites : Obligations.FaultEntryWrites := by
  unfold Obligations.FaultEntryWrites
  intro i s hp
  obtain ⟨c, hc, he⟩ := exec_of_failing hp
  refine ⟨c, raise c s, hc, he, rfl, ?state, ?cause, ?code⟩
  case state =>
    rw [status_state]
    rfl
  case cause => rw [status_cause, raise_cause]
  case code => cases c <;> decide

/-! ### The three causes -/

/-- The bytes after the frame stay offered, ahead of the host's other bytes. -/
theorem offeredBytes_offerRest (left : List Byte) (acts : List HostAct) :
    offeredBytes (offerRest left acts) = left ++ offeredBytes acts := by
  cases left <;> rfl

/-- Settles O30: the opcode byte is a whole frame by itself, so the step takes it alone and runs the fault entry. -/
theorem illegalOpcodeCompletes : Obligations.IllegalOpcodeCompletes := by
  unfold Obligations.IllegalOpcodeCompletes
  refine ⟨fun s op _ _ => exec_illegal op s, ?step, ⟨_, rfl, by decide⟩⟩
  case step =>
    intro s op bs acts hop hc hrx hh
    obtain ⟨-, -, htx⟩ := (cmdReady_iff s).1 hc
    have hd : decode (s.rx ++ op :: bs) = .frame (.illegal op) bs := by
      rw [hrx]
      exact decode_illegal bs ((illegalOpcode_iff op).2 hop)
    have hstep := (step_of_frame hh (List.cons_ne_nil op bs) hc hd).trans (exec_illegal op _)
    exact ⟨_, hstep, rfl, rfl, by simp [htx, FaultCause.code], rfl, offeredBytes_offerRest bs acts⟩

/-- Settles O31: the check is KEYS_VALID's, a proper beginning of the frame is kept by O48, and the example is run. -/
theorem noKeyFault : Obligations.NoKeyFault := by
  unfold Obligations.NoKeyFault
  refine ⟨?entry, fun s i k acts hw hc => step_of_beginning hw hc (by decide),
    ⟨rfl, fun _ => rfl, fun _ => rfl⟩, ⟨_, rfl, by decide⟩⟩
  case entry =>
    intro s i hk hc
    exact exec_raises ((passesCheck_of_noKey hc s).trans hk) hc

/-- Settles O32: the check is ENG_STATE's, a proper beginning of the frame is kept by O48, and the example is run. -/
theorem notActiveFault : Obligations.NotActiveFault := by
  unfold Obligations.NotActiveFault
  refine ⟨?entry, fun s i k acts hw hc => step_of_beginning hw hc (by decide),
    ⟨fun _ => rfl, fun _ => rfl, rfl⟩, ⟨_, rfl, by decide⟩⟩
  case entry =>
    intro s i hidle hc
    exact exec_raises ((passesCheck_of_notActive hc s).trans (by simp [hidle])) hc

/-! ### Commands that pass their check -/

/-- Only the fault entry writes CAUSE (60_exceptions.md R204). -/
theorem exec_cause_of_passing {i : Instr} {s t : State} (hp : passesCheck i s = true) (h : exec i s = .next t) :
    t.cause = s.cause := by
  rcases exec_next_cases h with ⟨c, hfail, -, -⟩ | ⟨k0, k1, -, rfl⟩ | ⟨-, -, rfl⟩ | ⟨bs, -, -, rfl⟩ | ⟨-, -, rfl⟩ |
    ⟨bs, -, -, rfl⟩
  · simp [hp] at hfail
  all_goals rfl

/-- Settles O34: OK is the response's first byte by O52, and FINISH leaves IDLE, in which FINISH's check fails. -/
theorem passingCommandAnswersOk : Obligations.PassingCommandAnswersOk := by
  unfold Obligations.PassingCommandAnswersOk
  refine ⟨?ok, ?finish⟩
  case ok =>
    intro i s hp
    obtain ⟨t, resp, he, htx, hpass, -⟩ := responseLengths i s
    obtain ⟨hhead, -⟩ := hpass hp
    obtain ⟨rest, rfl⟩ := List.head?_eq_some_iff.1 hhead
    exact ⟨t, rest, he, htx, exec_cause_of_passing hp he⟩
  case finish =>
    intro s t ha he
    have hidle : t.engState ≠ .active := by simp [exec_finish_next ha he]
    exact execFinish_of_not_active hidle

/-! ### FAULT until reset -/

/-- With CMD_READY = 0 a step is the host's RST, or takes no offered byte and changes nothing but the host's acts and
the response bytes it takes. -/
theorem step_of_not_ready {s t : State} (hready : ¬ s.cmdReady = true) (hstep : step s = .next t) :
    RstStep s t ∨ (t = { s with tx := t.tx, delivered := t.delivered, host := t.host } ∧
      offeredBytes t.host = offeredBytes s.host) := by
  rcases step_command_cases hstep with hr | ⟨acts, hh, -, rfl⟩ | ⟨acts, ho, rfl⟩ | ⟨bytes, acts, hc, -, -⟩ |
    ⟨i, s0, hcmd⟩
  · exact .inl hr
  · exact .inr ⟨rfl, by simp [hh, offeredBytes]⟩
  · exact .inr ⟨rfl, ho⟩
  · exact absurd hc hready
  · exact absurd hcmd.cmdReady hready

/-- Settles O35: CMD_READY is 0, and STATUS shows two of the registers that such a step keeps. -/
theorem faultIsTerminal : Obligations.FaultIsTerminal := by
  unfold Obligations.FaultIsTerminal
  intro s t hf hstep
  have hready : ¬ s.cmdReady = true := fun hc => ((cmdReady_iff s).1 hc).2.1 hf
  refine ⟨Bool.eq_false_of_not_eq_true hready, (step_of_not_ready hready hstep).imp_right ?kept⟩
  case kept =>
    rintro ⟨ht, ho⟩
    refine ⟨ht, ho, ?_, ?_⟩
    · rw [status_state, ht, hf]
      rfl
    · rw [status_cause, status_cause, ht]

end Sys2Proof.Machine
end

section
/-! PROOFS. Where a step stops (93_implementation_defined.md I8, I11, I12), and `exec` in FAULT (log entries 14, 15). -/

namespace Sys2Proof.Machine

/-! ### The stops of a step -/

/-- Every command gives a next state, so a step that takes bytes does. -/
theorem receive_next (bytes : List Byte) (acts : List HostAct) (s : State) :
    ∃ t, receive exec bytes acts s = .next t := by
  unfold receive
  split
  · exact ⟨_, rfl⟩
  · obtain ⟨t, ht, -⟩ := exec_cases _ _
    exact ⟨t, ht⟩

/-- A step that gives no next state waits for the host, which neither offers a byte that the block can take nor takes
a byte that the block offers. -/
theorem step_next_or_waits (s : State) :
    (∃ t, step s = .next t) ∨
      (step s = waitForHost s ∧ (s.cmdReady = true → s.cmdData = none) ∧
        (s.rspValid = true → s.host.head? ≠ some .take)) := by
  unfold step hostAct
  split
  case h_1 hh => exact .inr ⟨rfl, by simp [State.cmdData, hh], by simp [hh]⟩
  case h_2 => exact .inl ⟨_, rfl⟩
  case h_3 acts hh =>
    split
    case isTrue => exact .inl ⟨_, rfl⟩
    case isFalse hv => exact .inr ⟨rfl, by simp [State.cmdData, hh], fun h => absurd h hv⟩
  case h_4 bytes acts hh =>
    split
    case isTrue => exact .inl ⟨_, rfl⟩
    case isFalse =>
      split
      case isTrue => exact .inl (receive_next bytes acts s)
      case isFalse hc => exact .inr ⟨rfl, fun h => absurd h hc, by simp [hh]⟩

theorem waitForHost_fault {s : State} {f : Fault} (h : waitForHost s = .fault f) :
    nextRst s.host = none ∧ waitReason s = f := by
  unfold waitForHost at h
  split at h
  · rename_i hnone
    exact ⟨hnone, Host.Outcome.fault.inj h⟩
  · cases h

theorem waitForHost_ne_refused (s : State) (r : Refusal) : waitForHost s ≠ .refused r := by
  unfold waitForHost
  split <;> simp

/-- The reasons to wait exclude each other, in the order of the block's checks. -/
theorem waitReason_cases (s : State) :
    (waitReason s = .heldInReset ∧ s.rst = true) ∨
    (waitReason s = .halted ∧ s.rst = false ∧ s.engState = .fault) ∨
    (waitReason s = .responseUntaken ∧ s.rst = false ∧ s.engState ≠ .fault ∧ s.tx ≠ []) ∨
    (waitReason s = .frameIncomplete ∧ s.cmdReady = true ∧ s.rx ≠ []) ∨
    (waitReason s = .awaitingFrame ∧ s.cmdReady = true ∧ s.rx = []) := by
  rw [cmdReady_iff]
  by_cases hrst : s.rst = true
  · simp [waitReason, hrst]
  by_cases hf : s.engState = .fault
  · simp [waitReason, hrst, hf]
  by_cases htx : s.tx = []
  · by_cases hrx : s.rx = [] <;> simp [waitReason, hrst, hf, htx, hrx]
  · simp [waitReason, hrst, hf, htx]

/-- Settles O50: a step without a next state waits, and each reason to wait rules out what would let the host's next
act proceed. -/
theorem stopsOnlyWhenStuck : Obligations.StopsOnlyWhenStuck := by
  unfold Obligations.StopsOnlyWhenStuck
  refine ⟨?refused, ?fault⟩
  case refused =>
    intro s r h
    rcases step_next_or_waits s with ⟨t, ht⟩ | ⟨hw, -, -⟩
    · simp [ht] at h
    · exact waitForHost_ne_refused s r (hw ▸ h)
  case fault =>
    intro s f h
    rcases step_next_or_waits s with ⟨t, ht⟩ | ⟨hw, hoffer, htake⟩
    · simp [ht] at h
    · obtain ⟨hnone, rfl⟩ := waitForHost_fault (hw ▸ h)
      refine ⟨hnone, ?_⟩
      rcases waitReason_cases s with ⟨hreason, hrst⟩ | ⟨hreason, hrst, hf⟩ | ⟨hreason, hrst, hf, htx⟩ |
        ⟨hreason, hc, hrx⟩ | ⟨hreason, hc, hrx⟩ <;> rw [hreason]
      · exact hrst
      · exact ⟨hrst, hf⟩
      · exact ⟨hrst, hf, htx, htake ((rspValid_iff s).2 ⟨hrst, htx⟩)⟩
      · exact ⟨hc, hrx, hoffer hc⟩
      · exact ⟨hc, hrx, hoffer hc⟩

/-! ### `exec` in FAULT -/

/-- In FAULT the fault entry writes ENG_STATE's own value, so CAUSE and the response are all it changes. -/
theorem raise_of_fault (c : FaultCause) {s : State} (h : s.engState = .fault) :
    raise c s = { s with cause := c.code, tx := s.tx ++ [c.code] } := by
  rw [raise, ← h]
  rfl

/-- Settles O59: the laws of the commands have no premise that keeps FAULT out, and the checks of the commands that
need an engine fail there. -/
theorem execInFaultFollowsPseudocode : Obligations.ExecInFaultFollowsPseudocode := by
  unfold Obligations.ExecInFaultFollowsPseudocode
  refine ⟨fun s hf => ⟨fun k0 k1 => rfl, ?keys, ?noKey, ?notActive⟩, fun s op => exec_illegal op s⟩
  case keys =>
    intro hk
    exact ⟨execInit_of_valid hk, fun data => oneShot_of_valid data hk, fun b => oneShot_of_valid [b] hk⟩
  case noKey =>
    intro hk i hc
    rw [exec_raises ((passesCheck_of_noKey hc s).trans hk) hc, raise_of_fault _ hf]
    rfl
  case notActive =>
    intro i hc
    rw [exec_raises ((passesCheck_of_notActive hc s).trans (by simp [hf])) hc, raise_of_fault _ hf]
    rfl

end Sys2Proof.Machine
end
